-- ==== Sys2Proof/Word.lean ====
section
/-! DEFINITION. The two units of data: the word (00_scope.md R8, R9) and the byte or character (R9).

"A word is an unsigned integer in `[0, 2^W)`" (R9), and W is a parameter of the build (R7). So a word is
a natural number here, as in the spec's pseudocode, and every rule reduces `mod 2^W` itself. The type
is written `Nat`, not a name for it, so that `omega` reads every word of a goal. That all words of a
machine stay below `2^W` is the invariant `State.wordsInRange` of Safety.lean
(notes/assumptions/4.md). -/

namespace Sys2Proof

/-- The natural number `v` is a word of `W` bits (R9). -/
abbrev isWord (W v : Nat) : Prop := v < 2 ^ W

/-- "The words byte and character both mean an 8-bit unsigned value" (R9). -/
abbrev Byte := BitVec 8

end Sys2Proof
end

