-- ==== Sys2Proof/Machine/Flags.lean ====
section
/-! DEFINITION. The engine has no flags and no condition codes (10_state.md R27): "the five conditional jumps
compare the stack top with an inline operand inside the same instruction". What stands in their place
are the five unsigned comparisons of 41_control.md R130: the stack top on the left, `cmp` on the right. -/

namespace Sys2Proof.Machine

/-- JGE: `top >= cmp` (R131) -/
def condGe (top cmp : Nat) : Bool := cmp ≤ top

/-- JGT: `top > cmp` (R132) -/
def condGt (top cmp : Nat) : Bool := cmp < top

/-- JLE: `top <= cmp` (R133) -/
def condLe (top cmp : Nat) : Bool := top ≤ cmp

/-- JLT: `top < cmp` (R134) -/
def condLt (top cmp : Nat) : Bool := top < cmp

/-- JEQ: `top = cmp`, all W bits (R135) -/
def condEq (top cmp : Nat) : Bool := top = cmp

end Sys2Proof.Machine
end

