-- ==== Sys2Proof/Syntax.lean ====
section
/-! DEFINITION. The instruction set: the 23 mnemonics (00_scope.md R2) and the instructions with their
inline operand words (30_encoding.md R83). -/

namespace Sys2Proof

/-- The closed set of 23 mnemonics, in the order of the document's table (R2, R84). -/
inductive Opcode where
  | push | pop | add | sub | mul | div | mod | inc | dec
  | jge | jgt | jle | jlt | jeq | jmp | out | inLine | dbg
  | store | load | sstore | sload | halt
deriving DecidableEq, Repr

/-- One instruction: a mnemonic with its inline operand words, in stream order (R83). One constructor
per row of spec/opcode_table.json. -/
inductive Instr where
  /-- PUSH v (R110) -/
  | push (v : Nat)
  /-- POP (R111) -/
  | pop
  /-- ADD (R113) -/
  | add
  /-- SUB (R114) -/
  | sub
  /-- MUL (R115) -/
  | mul
  /-- DIV (R116) -/
  | div
  /-- MOD (R117) -/
  | mod
  /-- INC (R118) -/
  | inc
  /-- DEC (R119) -/
  | dec
  /-- JGE cmp, addr (R131) -/
  | jge (cmp addr : Nat)
  /-- JGT cmp, addr (R132) -/
  | jgt (cmp addr : Nat)
  /-- JLE cmp, addr (R133) -/
  | jle (cmp addr : Nat)
  /-- JLT cmp, addr (R134) -/
  | jlt (cmp addr : Nat)
  /-- JEQ cmp, addr (R135) -/
  | jeq (cmp addr : Nat)
  /-- JMP addr (R136) -/
  | jmp (addr : Nat)
  /-- OUT (R152) -/
  | out
  /-- IN size, addr (R153); `in` is a word of Lean -/
  | inLine (size addr : Nat)
  /-- DBG (R156) -/
  | dbg
  /-- STORE addr (R170) -/
  | store (addr : Nat)
  /-- LOAD addr (R171) -/
  | load (addr : Nat)
  /-- SSTORE (R172) -/
  | sstore
  /-- SLOAD (R173) -/
  | sload
  /-- HALT (R139) -/
  | halt
deriving DecidableEq, Repr

end Sys2Proof
end

