-- ==== Sys2Proof/Config.lean ====
section
/-! DEFINITION. What a build fixes: the parameters of 00_scope.md R7 with their constraints and default
values, and the one value the spec leaves open (the text of a trace line). -/

namespace Sys2Proof

/-- EOF_POLICY: what the input source answers once its lines have run out (42_io.md R154). -/
inductive EofPolicy where
  /-- the engine waits for ever (the default) -/
  | wait
  /-- every read after the end is answered with an empty line -/
  | empty
deriving DecidableEq, Repr

/-- DBG_FORMAT: digit case, prefix and padding of the DBG text (R7, 42_io.md R158).
DESIGN CHOICE for the shape of the parameter (notes/assumptions/14.md). -/
structure DbgFormat where
  upperCase : Bool
  linePrefix : List Byte
  minDigits : Nat
deriving DecidableEq, Repr

/-- The parameters of a build (R7, R38): "fixed for a build and never changes while the engine exists".
They are data of the model, so that a claim about every state is a claim about every build. -/
structure Params where
  /-- word width in bits -/
  W : Nat
  /-- OPC: the opcode numbers of the 23 mnemonics in the order of the table of R84 -/
  opc : List Nat
  /-- STACK_CAP: largest operand stack depth, `none` for unbounded -/
  stackCap : Option Nat
  /-- MEM_CAP: largest memory length in words -/
  memCap : Nat
  /-- STREAM_CAP: largest instruction stream length in words -/
  streamCap : Nat
  /-- BC_VERSION: the supported bytecode-format version -/
  bcVersion : Byte
  /-- ERRCODE: the codes of the five Error State values in the order of R30 -/
  errCode : List Nat
  dbgFormat : DbgFormat
  eofPolicy : EofPolicy
deriving DecidableEq, Repr

/-- B: bytes (characters) per word, `B = W / 8` (R7). -/
def Params.B (p : Params) : Nat := p.W / 8

/-- `2^W`, the number of words. -/
def Params.wordCount (p : Params) : Nat := 2 ^ p.W

/-- The constraint column of R7's table. -/
abbrev Params.Valid (p : Params) : Prop :=
  (p.W % 8 = 0 ∧ 8 ≤ p.W ∧ p.W ≤ 2040) ∧
  (p.opc.length = 23 ∧ p.opc.Nodup ∧ ∀ n ∈ p.opc, n < 2 ^ p.W) ∧
  (1 ≤ p.memCap ∧ p.memCap ≤ 2 ^ p.W) ∧
  (1 ≤ p.streamCap ∧ p.streamCap ≤ 2 ^ p.W) ∧
  (p.errCode.length = 5 ∧ p.errCode.Nodup)

/-- The default column of R7's table (notes/assumptions/3.md). -/
def Params.default : Params where
  W := 32
  opc := List.range 23
  stackCap := none
  memCap := 2 ^ 32
  streamCap := 2 ^ 32
  bcVersion := 1
  errCode := [0, 1, 2, 3, 4]
  dbgFormat := { upperCase := false, linePrefix := [], minDigits := 1 }
  eofPolicy := .wait

/-- FREE VALUE: "the text of a trace line is not given by the document" (44_host_interface.md R200,
91_not_in_source.md N8). It enters only the rendering of events as one character channel
(notes/assumptions/13.md). -/
opaque Config.traceText : Nat → Option Nat → List Byte

end Sys2Proof
end

