-- ==== Sys2Proof/Decode.lean ====
section
/-! DEFINITION. Opcode numbers, the decoder (30_encoding.md R82, R83, R88) and the encoder (R87). -/

namespace Sys2Proof

/-- Position of a mnemonic in the document's table, which is also its default number (R84). -/
def Opcode.index : Opcode → Nat
  | .push => 0 | .pop => 1 | .add => 2 | .sub => 3 | .mul => 4 | .div => 5 | .mod => 6
  | .inc => 7 | .dec => 8 | .jge => 9 | .jgt => 10 | .jle => 11 | .jlt => 12 | .jeq => 13
  | .jmp => 14 | .out => 15 | .inLine => 16 | .dbg => 17 | .store => 18 | .load => 19
  | .sstore => 20 | .sload => 21 | .halt => 22

/-- The number of inline operand words (R83). -/
def Opcode.arity : Opcode → Nat
  | .push | .jmp | .store | .load => 1
  | .jge | .jgt | .jle | .jlt | .jeq | .inLine => 2
  | .pop | .add | .sub | .mul | .div | .mod | .inc | .dec
  | .out | .dbg | .sstore | .sload | .halt => 0

/-- The 23 mnemonics in table order (R2). -/
def Opcode.all : List Opcode :=
  [.push, .pop, .add, .sub, .mul, .div, .mod, .inc, .dec, .jge, .jgt, .jle, .jlt, .jeq, .jmp,
   .out, .inLine, .dbg, .store, .load, .sstore, .sload, .halt]

/-- OPC(m): the opcode number of a mnemonic in a build (R7, R84). -/
def Params.opcodeNumber (p : Params) (m : Opcode) : Nat := p.opc.getD m.index 0

/-- The mnemonic a word selects "by its whole value" (R82), if any. -/
def Params.opcodeOf (p : Params) (w : Nat) : Option Opcode :=
  Opcode.all.find? fun m => p.opcodeNumber m == w

/-- The three answers of the decoder (R88). -/
inductive Decoded where
  /-- `Invalid(w)`: the word is no opcode number (R89) -/
  | invalid (w : Nat)
  /-- `Truncated(m, w)`: the stream ends before the last operand (R91) -/
  | truncated (m : Opcode) (w : Nat)
  /-- `Instr(m, operands, length)`; the length is `Instr.length` -/
  | instr (i : Instr)
deriving DecidableEq, Repr

/-- Format F1 (R81): one operand word, used whole (R85). -/
def decodeOne (m : Opcode) (w : Nat) (rest : List Nat) (mk : Nat → Instr) : Decoded :=
  match rest with
  | o1 :: _ => .instr (mk o1)
  | [] => .truncated m w

/-- Format F2 (R81): two operand words, used whole (R85). -/
def decodeTwo (m : Opcode) (w : Nat) (rest : List Nat) (mk : Nat → Nat → Instr) : Decoded :=
  match rest with
  | o1 :: o2 :: _ => .instr (mk o1 o2)
  | _ => .truncated m w

/-- Assembles the operands of mnemonic `m`, whose opcode word was `w`, from the words after it. -/
def decodeOperands (m : Opcode) (w : Nat) (rest : List Nat) : Decoded :=
  match m with
  | .push => decodeOne m w rest .push
  | .pop => .instr .pop
  | .add => .instr .add
  | .sub => .instr .sub
  | .mul => .instr .mul
  | .div => .instr .div
  | .mod => .instr .mod
  | .inc => .instr .inc
  | .dec => .instr .dec
  | .jge => decodeTwo m w rest .jge
  | .jgt => decodeTwo m w rest .jgt
  | .jle => decodeTwo m w rest .jle
  | .jlt => decodeTwo m w rest .jlt
  | .jeq => decodeTwo m w rest .jeq
  | .jmp => decodeOne m w rest .jmp
  | .out => .instr .out
  | .inLine => decodeTwo m w rest .inLine
  | .dbg => .instr .dbg
  | .store => decodeOne m w rest .store
  | .load => decodeOne m w rest .load
  | .sstore => .instr .sstore
  | .sload => .instr .sload
  | .halt => .instr .halt

/-- `decode` (R88) of the opcode word `w` and the words that follow it in the stream. -/
def decode (p : Params) (w : Nat) (rest : List Nat) : Decoded :=
  match p.opcodeOf w with
  | none => .invalid w
  | some m => decodeOperands m w rest

/-- `decode(Stream, i)` (R88); `none` exactly when `i >= slen`, where nothing is fetched (R65). -/
def decodeAt (p : Params) (stream : List Nat) (i : Nat) : Option Decoded :=
  match stream.drop i with
  | [] => none
  | w :: rest => some (decode p w rest)

/-- The mnemonic of an instruction. -/
def Instr.opcode : Instr → Opcode
  | .push _ => .push
  | .pop => .pop
  | .add => .add
  | .sub => .sub
  | .mul => .mul
  | .div => .div
  | .mod => .mod
  | .inc => .inc
  | .dec => .dec
  | .jge _ _ => .jge
  | .jgt _ _ => .jgt
  | .jle _ _ => .jle
  | .jlt _ _ => .jlt
  | .jeq _ _ => .jeq
  | .jmp _ => .jmp
  | .out => .out
  | .inLine _ _ => .inLine
  | .dbg => .dbg
  | .store _ => .store
  | .load _ => .load
  | .sstore => .sstore
  | .sload => .sload
  | .halt => .halt

/-- The inline operand words in stream order (R83). -/
def Instr.operands : Instr → List Nat
  | .push v => [v]
  | .jge cmp addr => [cmp, addr]
  | .jgt cmp addr => [cmp, addr]
  | .jle cmp addr => [cmp, addr]
  | .jlt cmp addr => [cmp, addr]
  | .jeq cmp addr => [cmp, addr]
  | .jmp addr => [addr]
  | .inLine size addr => [size, addr]
  | .store addr => [addr]
  | .load addr => [addr]
  | .pop | .add | .sub | .mul | .div | .mod | .inc | .dec
  | .out | .dbg | .sstore | .sload | .halt => []

/-- Length in words, told from the opcode alone: `1 + arity` (R86). -/
def Instr.length (i : Instr) : Nat := 1 + i.opcode.arity

/-- `encode` of one instruction (R87). -/
def encode (p : Params) (i : Instr) : List Nat := p.opcodeNumber i.opcode :: i.operands

/-- `encode(program)`: "concatenation of encode(instruction) in order" (R87). -/
def encodeProgram (p : Params) (is : List Instr) : List Nat := is.flatMap (encode p)

/-- "Decoding from index 0 and stepping by the returned lengths" (R88): reads at most `n` instructions
from index `i` on, and stops at the end of the stream or at a word that does not decode. -/
def decodeProgram (p : Params) (stream : List Nat) : Nat → Nat → List Instr
  | 0, _ => []
  | n + 1, i =>
    match decodeAt p stream i with
    | some (.instr j) => j :: decodeProgram p stream n (i + j.length)
    | _ => []

/-- Cuts the number `w` into `n` words of `W` bits, least significant word first: the numbering of
spec/opcode_table.json (bit 0 is the least significant bit of the first word). -/
def splitWords (W : Nat) : Nat → Nat → List Nat
  | 0, _ => []
  | n + 1, w => w % 2 ^ W :: splitWords W n (w / 2 ^ W)

/-- The length in words of the longest instruction (R81, R86). -/
def maxLength : Nat := 3

/-- The words of an instruction whose first `nbits` bits are `w` and whose other bits are zero. -/
def tableWords (W nbits w : Nat) : List Nat := splitWords W maxLength (w % 2 ^ nbits)

/-- The instruction the decoder of the default build reads from the bits `w` of a table row. -/
def decodeTableWord (nbits w : Nat) : Option Instr :=
  match decodeAt Params.default (tableWords Params.default.W nbits w) 0 with
  | some (.instr i) => some i
  | _ => none

end Sys2Proof
end

