-- ==== Sys2Proof/Machine/State.lean ====
section
/-! DEFINITION. The state of one engine (10_state.md), with the parts of its surroundings that one plain
State has to hold, and its value at power-on (R39, R271). -/

namespace Sys2Proof.Machine

/-- The Error State, the document's "single-slot classification of the VM's last failure condition" (R29). -/
inductive ErrorState where
  | noError
  /-- written by SAVE and LOAD (R204, R206) -/
  | fileOpen
  /-- written by LOAD (R206) -/
  | versionMismatch
  /-- written by LOAD (R206) -/
  | wordSizeMismatch
  /-- "reserved; not raised": nothing writes it (R29, R249) -/
  | invalidInstruction
deriving DecidableEq, Repr

/-- The run state (R32). -/
inductive RunState where
  /-- executes nothing, accepts every host command -/
  | idle
  /-- an EXECUTE is in progress, accepts no host command -/
  | running
  /-- a fault stopped the engine -/
  | faulted
deriving DecidableEq, Repr

/-- Why the last EXECUTE ended (R34). -/
inductive StopReason where
  | none
  | endOfStream
  | halted
  | fault
deriving DecidableEq, Repr

/-- The fault codes of 60_exceptions.md R230. -/
inductive FaultCode where
  | none
  | stackUnderflow
  | divideByZero
  | invalidInstruction
  | truncatedInstruction
  | jumpOutOfRange
  | unallocatedRead
  | stackOverflow
  | memoryOverflow
deriving DecidableEq, Repr

/-- The output events (R36). -/
inductive Event where
  /-- one 8-bit character written by OUT (R152) -/
  | char (c : Byte)
  /-- one word written by DBG (R156) -/
  | dbg (w : Nat)
  /-- one trace record: the fetched opcode word and the stack top, if there is one (R200) -/
  | trace (op : Nat) (top : Option Nat)
deriving DecidableEq, Repr

/-- Data memory (R23): a word-addressed array of length `mlen`, held as the cells that are not zero, so
that its cost does not depend on `mlen` (R284). An allocated cell that is not listed reads 0
(R52, R53). Entries are (address, word) pairs since "there are no bytes ... that an address can name"
(R51). The canonical form is `Memory.wf`. -/
structure Memory where
  cells : List (Nat × Nat)
  mlen : Nat
deriving DecidableEq, Repr

/-- The canonical form: addresses strictly rising, no listed zero, every listed cell allocated. Equal
memories are then equal data. -/
abbrev Memory.wf (m : Memory) : Prop :=
  (m.cells.map Prod.fst).Pairwise (· < ·) ∧ ∀ c ∈ m.cells, c.2 ≠ 0 ∧ c.1 < m.mlen

/-- The input source as IN sees it (R37, R154): the lines delivered and not yet read, oldest first, and
whether the source has ended for good. -/
structure InputSource where
  lines : List (List Byte)
  ended : Bool
deriving DecidableEq, Repr

/-- The state: 10_state.md's tuple, then what the spec places outside the engine (`output` R36,
`input` R37), the position inside a waiting IN (R154) and the parameters of the build (R38). -/
structure State where
  /-- the instruction stream (R20) -/
  stream : List Nat
  /-- the operand stack, top first (R22) -/
  stack : List Nat
  /-- data memory (R23) -/
  mem : Memory
  /-- the program counter (R24) -/
  ip : Nat
  /-- the Error State (R29) -/
  err : ErrorState
  /-- the trace toggle (R31) -/
  trace : Bool
  /-- the run state (R32) -/
  run : RunState
  /-- the stop reason (R34) -/
  stop : StopReason
  /-- the fault record (R33): the code -/
  fault : FaultCode
  /-- the fault record: the index of the faulting opcode word -/
  faultIp : Nat
  /-- the fault record: the information word (R233) -/
  faultVal : Nat
  /-- the output event stream, oldest first (R36); the sink's, not the engine's -/
  output : List Event
  /-- the input source (R37); not the engine's -/
  input : InputSource
  /-- the engine waits inside IN's line read and this cycle's trace event is already out
  (R154, R90 step 3; notes/assumptions/6.md) -/
  waiting : Bool
  /-- the parameters of the build (R7, R38), an argument of the model that nothing writes
  (notes/assumptions/2.md) -/
  params : Params
deriving DecidableEq, Repr

/-- Reasons a step could end the run of the MODEL. There is none: every fault of the spec is an effect on
the state (R232: the fault record, `run` and `stop`), hence a next state, and the host can go on with
CLEAR or RESET (R239). Nobody raises this type; safe (notes/assumptions/1.md). -/
inductive Fault
deriving DecidableEq, Repr

/-- Reasons the model has no meaning for an instruction. -/
inductive Refusal where
  /-- raised by an arm of `exec` whose instruction has no meaning yet; no arm does; safe -/
  | notModelled (mnemonic : String)
deriving DecidableEq, Repr

/-- The outcome type of every meaning. -/
abbrev Outcome := Host.Outcome State Fault Refusal

/-- Power-on (R39's last column, R271) of the default build (R7), with nothing delivered by the input
source and nothing emitted yet. -/
def State.reset : State where
  stream := []
  stack := []
  mem := { cells := [], mlen := 0 }
  ip := 0
  err := .noError
  trace := false
  run := .idle
  stop := .none
  fault := .none
  faultIp := 0
  faultVal := 0
  output := []
  input := { lines := [], ended := false }
  waiting := false
  params := Params.default

end Sys2Proof.Machine
end

