-- ==== Sys2Proof/Machine/Ops.lean ====
section
/-! DEFINITION. The named operations of 00_scope.md R11 over the stack, memory, `ip` and the events; raising
a fault (60_exceptions.md R232) and recovering from one (44_host_interface.md R195, R196). -/

namespace Sys2Proof.Machine

/-! ### Stream and stack -/

/-- `slen` (R20) -/
def State.slen (s : State) : Nat := s.stream.length

/-- `depth` (R22) -/
def State.depth (s : State) : Nat := s.stack.length

/-- `Some(top)` when `depth >= 1`, else `None` (R22, R197, R200). -/
def State.top (s : State) : Option Nat := s.stack.head?

/-- `depth >= STACK_CAP`, never so when STACK_CAP is unbounded (R22, R246). -/
def State.stackFull (s : State) : Bool :=
  match s.params.stackCap with
  | none => false
  | some cap => cap ≤ s.depth

/-- Replaces the operand stack. -/
def State.withStack (s : State) (st : List Nat) : State := { s with stack := st }

/-! ### Data memory -/

/-- Contents of an allocated cell: 0 unless listed (R52, R53). -/
def readCell (a : Nat) : List (Nat × Nat) → Nat
  | [] => 0
  | (b, w) :: t => if a = b then w else readCell a t

/-- Sets one cell and keeps the canonical form: addresses rising, no zero listed. -/
def writeCell (a : Nat) (v : Nat) : List (Nat × Nat) → List (Nat × Nat)
  | [] => if v = 0 then [] else [(a, v)]
  | (b, w) :: t =>
    if a < b then (if v = 0 then (b, w) :: t else (a, v) :: (b, w) :: t)
    else if a = b then (if v = 0 then t else (a, v) :: t)
    else (b, w) :: writeCell a v t

/-- `MemRead(addr, 1)`: `none` is the UNALLOCATED_READ of R52. -/
def Memory.read (m : Memory) (a : Nat) : Option Nat :=
  if a < m.mlen then some (readCell a m.cells) else none

/-- The grow-on-demand write of R53: `mlen` becomes `a + 1` if it was smaller, new cells read 0. -/
def Memory.write (m : Memory) (a : Nat) (v : Nat) : Memory where
  cells := writeCell a v m.cells
  mlen := max m.mlen (a + 1)

/-- One write per word at ascending addresses from `a` on (R57, R153). -/
def Memory.writeSpan (m : Memory) (a : Nat) : List Nat → Memory
  | [] => m
  | w :: ws => (m.write a w).writeSpan (a + 1) ws

/-- Replaces data memory. -/
def State.withMem (s : State) (m : Memory) : State := { s with mem := m }

/-- `MemWrite(addr, 1, v)`: `none` is the MEMORY_OVERFLOW of R53. -/
def State.memWrite (s : State) (a : Nat) (v : Nat) : Option State :=
  if s.params.memCap ≤ a then none else some (s.withMem (s.mem.write a v))

/-! ### Program counter, events, end of a run -/

/-- `ip <- next_ip` with `next_ip = ip + 1 + arity` (R14, R24, R90). -/
def State.advance (s : State) (m : Opcode) : State := { s with ip := s.ip + 1 + m.arity }

/-- `ip <- t` (R24). -/
def State.jumpTo (s : State) (t : Nat) : State := { s with ip := t }

/-- `emit(e)` for each event in order (R36). -/
def State.emit (s : State) (es : List Event) : State := { s with output := s.output ++ es }

/-- `run <- IDLE ; stop <- r`: the EXECUTE command completes (R90 step 1, R139). -/
def State.endRun (s : State) (r : StopReason) : State :=
  { s with run := .idle, stop := r, waiting := false }

/-- Inside IN with no line available: "the engine waits inside the IN instruction" (R154, R257). -/
def State.wait (s : State) : State := { s with waiting := true }

/-- The line read is over, or a new cycle starts. -/
def State.endWait (s : State) : State := { s with waiting := false }

/-! ### Faults -/

/-- `raise F(info)` (R232): writes the fault record, `run` and `stop`, "and nothing else"; `ip` still
points at the opcode word. (A raise also ends a wait, the model's own flag.) -/
def State.raise (s : State) (f : FaultCode) (info : Nat) : State :=
  { s with fault := f, faultIp := s.ip, faultVal := info, run := .faulted, stop := .fault,
           waiting := false }

/-- The codes of R230. -/
def FaultCode.number : FaultCode → Nat
  | .none => 0
  | .stackUnderflow => 1
  | .divideByZero => 2
  | .invalidInstruction => 3
  | .truncatedInstruction => 4
  | .jumpOutOfRange => 5
  | .unallocatedRead => 6
  | .stackOverflow => 7
  | .memoryOverflow => 8

/-- RESET (R196): everything but `stream` and `trace` goes back to empty or zero. There is no return from
a fault; this and CLEAR are the recovery (R239). Output and input are outside the engine and are not
undone (R36, R37). -/
def State.resetEngine (s : State) : State :=
  { s with
    stack := [], mem := { cells := [], mlen := 0 }, ip := 0, err := .noError,
    run := .idle, stop := .none, fault := .none, faultIp := 0, faultVal := 0, waiting := false }

/-- CLEAR (R195): RESET, and the stream is emptied too; `trace` is unchanged. -/
def State.clearEngine (s : State) : State := { s.resetEngine with stream := [] }

/-- Power-on (R271): the state CLEAR leaves, and `trace = 0`. -/
def State.powerOn (s : State) : State := { s.clearEngine with trace := false }

end Sys2Proof.Machine
end

