-- ==== Sys2Proof/Machine/Packing.lean ====
section
/-! DEFINITION. Bytes of a word, most significant first (00_scope.md R10, 20_memory.md R55), and the
character packing built on them (42_io.md R150, R151, R159). Everything takes the word width `W`. -/

namespace Sys2Proof.Machine

/-- `byte_k(v) = v[W-1-8k : W-8-8k]`; `byte_0` is the most significant byte (R10). -/
def byteOf (W : Nat) (v : Nat) (k : Nat) : Byte := BitVec.ofNat 8 (v / 2 ^ (W - 8 - 8 * k))

/-- The sum over `k < B` of `c'(k) * 2^(W - 8 - 8k)`, where `c'(k)` is character `k` and 0 past the
end: one word of R150's packing, and the word `w_j` of R205. -/
def joinBytes (W : Nat) (bs : List Byte) : Nat :=
  ((List.range (W / 8)).map fun k => (bs.getD k 0).toNat * 2 ^ (W - 8 - 8 * k)).sum

/-- `unpack(w) = [byte_0(w), ..., byte_{B-1}(w)]` (R151). -/
def unpack (W : Nat) (w : Nat) : List Byte := (List.range (W / 8)).map (byteOf W w)

/-- `n = ceil(L / B)`, the number of words `L` characters fill (R150). -/
def packedLength (W L : Nat) : Nat := (L + W / 8 - 1) / (W / 8)

/-- `pack(cs)`: word `j` holds the characters from index `j*B` on, "most-significant-byte-first", the
last word zero-padded in its low bytes (R150). -/
def pack (W : Nat) (cs : List Byte) : List Nat :=
  (List.range (packedLength W cs.length)).map fun j => joinBytes W (cs.drop (j * (W / 8)))

/-- The characters OUT emits for a word: its non-zero bytes, most significant first, the zero bytes
"elided without terminating the scan early" (R152). -/
def printedChars (W : Nat) (w : Nat) : List Byte := (unpack W w).filter (· ≠ 0)

end Sys2Proof.Machine
end

