-- ==== Sys2Proof/Machine/Operands.lean ====
section
/-! DEFINITION. Where an instruction's operands come from. Inline operand words are used whole and unsigned, as
they are (30_encoding.md R85), so they need no operation; stack operands come with the depth check of
60_exceptions.md R240; addresses are the word itself, inline or from the stack (43_memory_ops.md R174);
a line of input comes from the input source (42_io.md R154). -/

namespace Sys2Proof.Machine

/-- One stack word: `f top rest`, or STACK_UNDERFLOW(depth) when the stack is empty (R240). Peeking
instructions ignore `rest` (R277). -/
def State.withTop (s : State) (f : Nat → List Nat → State) : State :=
  match s.stack with
  | t :: rest => f t rest
  | [] => s.raise .stackUnderflow s.depth

/-- Two stack words: `f b a rest` with `b` the top and `a` the word under it (R112), or
STACK_UNDERFLOW(depth) when `depth < 2`, nothing popped (R240). -/
def State.withTopTwo (s : State) (f : Nat → Nat → List Nat → State) : State :=
  match s.stack with
  | b :: a :: rest => f b a rest
  | _ => s.raise .stackUnderflow s.depth

/-- `ReadLine()` (R154): the next line and the state with it consumed; after the end of the input an
empty line if EOF_POLICY is `empty`; `none` when no line is available and the engine has to wait. -/
def State.readLine (s : State) : Option (List Byte × State) :=
  match s.input.lines with
  | line :: rest => some (line, { s with input := { s.input with lines := rest } })
  | [] =>
    match s.input.ended, s.params.eofPolicy with
    | true, .empty => some ([], s)
    | _, _ => none

/-- What IN stores (R153): the first `min(size, n)` packed words at ascending addresses from `addr`
on, then the terminator 0 at `addr + size`, "always, last". -/
def Memory.storeLine (m : Memory) (W : Nat) (size addr : Nat) (line : List Byte) : Memory :=
  (m.writeSpan addr ((pack W line).take size)).write (addr + size) 0

end Sys2Proof.Machine
end

