-- ==== Sys2Proof/Machine/Control.lean ====
section
/-! DEFINITION. Control transfer (41_control.md). -/

namespace Sys2Proof.Machine

/-- A taken jump (R137, R138): an absolute stream index, `addr = slen` allowed, beyond it
JUMP_OUT_OF_RANGE. -/
def State.takeJump (s : State) (addr : Nat) : State :=
  if s.slen < addr then s.raise .jumpOutOfRange addr else s.jumpTo addr

/-- The common rule of the conditional jumps (R130): the top is peeked, `addr` is looked at only when
the jump is taken. -/
def State.jumpIf (s : State) (m : Opcode) (rel : Nat → Nat → Bool) (cmp addr : Nat) : State :=
  s.withTop fun t _ => if rel t cmp then s.takeJump addr else s.advance m

/-- JGE cmp, addr (R131) -/
def execJge (cmp addr : Nat) (s : State) : Outcome := .next (s.jumpIf .jge condGe cmp addr)

/-- JGT cmp, addr (R132) -/
def execJgt (cmp addr : Nat) (s : State) : Outcome := .next (s.jumpIf .jgt condGt cmp addr)

/-- JLE cmp, addr (R133) -/
def execJle (cmp addr : Nat) (s : State) : Outcome := .next (s.jumpIf .jle condLe cmp addr)

/-- JLT cmp, addr (R134) -/
def execJlt (cmp addr : Nat) (s : State) : Outcome := .next (s.jumpIf .jlt condLt cmp addr)

/-- JEQ cmp, addr (R135) -/
def execJeq (cmp addr : Nat) (s : State) : Outcome := .next (s.jumpIf .jeq condEq cmp addr)

/-- JMP addr (R136) -/
def execJmp (addr : Nat) (s : State) : Outcome := .next (s.takeJump addr)

/-- HALT (R139): past the HALT word, then the run ends. -/
def execHalt (s : State) : Outcome := .next ((s.advance .halt).endRun .halted)

end Sys2Proof.Machine
end

