-- ==== Sys2Proof/Machine/InputOutput.lean ====
section
/-! DEFINITION. OUT, IN and DBG (42_io.md), and the text of the output events (R157, R158). -/

namespace Sys2Proof.Machine

/-- OUT (R152): the non-zero bytes of the peeked top, most significant first. -/
def execOut (s : State) : Outcome :=
  .next (s.withTop fun t _ => (s.emit ((printedChars s.params.W t).map .char)).advance .out)

/-- IN size, addr (R153): the capacity check comes before the read, so a faulting IN consumes no
input; with no line available the engine waits (R154). -/
def execIn (size addr : Nat) (s : State) : Outcome :=
  .next (if s.params.memCap ≤ addr + size then s.raise .memoryOverflow addr
    else match s.readLine with
      | none => s.wait
      | some (line, t) =>
        ((t.withMem (t.mem.storeLine t.params.W size addr line)).advance .inLine).endWait)

/-- DBG (R156): the whole word of the peeked top. -/
def execDbg (s : State) : Outcome :=
  .next (s.withTop fun t _ => (s.emit [.dbg t]).advance .dbg)

/-! ### Text of events -/

/-- The character of a base-16 digit (R158; ASCII codes as in 93_implementation_defined.md G3,
notes/assumptions/15.md). -/
def hexDigit (upper : Bool) (d : Nat) : Byte :=
  BitVec.ofNat 8 (if d < 10 then 0x30 + d else if upper then 0x41 + (d - 10) else 0x61 + (d - 10))

/-- Base-16 digits of `v`, most significant first, none for 0. `fuel` bounds their number. -/
def hexDigitsAux : Nat → Nat → List Nat
  | 0, _ => []
  | fuel + 1, v => if v = 0 then [] else hexDigitsAux fuel (v / 16) ++ [v % 16]

/-- Base-16 digits of a word of `W` bits, padded with zeros on the left to `minDigits`, "at least one
digit" (R158). -/
def hexDigits (W minDigits : Nat) (v : Nat) : List Nat :=
  let ds := hexDigitsAux (W / 4) v
  List.replicate (max 1 minDigits - ds.length) 0 ++ ds

/-- The line feed, 0x0A (R98, R158). -/
def lineFeed : Byte := 0x0A

/-- The text of a `Dbg` event: the word in base 16, then one line feed (R158). -/
def dbgText (p : Params) (w : Nat) : List Byte :=
  p.dbgFormat.linePrefix ++
    (hexDigits p.W p.dbgFormat.minDigits w).map (hexDigit p.dbgFormat.upperCase) ++ [lineFeed]

/-- An event rendered for one character channel (R157); the text of a trace line is a free value. -/
def Event.text (p : Params) : Event → List Byte
  | .char c => [c]
  | .dbg w => dbgText p w
  | .trace op top => Config.traceText op top

/-- All events down one character channel, "in event order" (R157). -/
def oneChannel (p : Params) (es : List Event) : List Byte := es.flatMap (Event.text p)

/-- The `Char` events alone, as a channel of their own (R157). -/
def charChannel (es : List Event) : List Byte :=
  es.filterMap fun e => match e with
    | .char c => some c
    | .dbg _ => none
    | .trace _ _ => none

end Sys2Proof.Machine
end

