-- ==== Sys2Proof/Machine/MemoryOps.lean ====
section
/-! DEFINITION. STORE, LOAD, SSTORE, SLOAD (43_memory_ops.md). -/

namespace Sys2Proof.Machine

/-- The common end of STORE and SSTORE: MEMORY_OVERFLOW(addr) with the stack as it was (R247), or the
write, the stack `rest` and the next instruction. -/
def State.storeWord (s : State) (m : Opcode) (addr v : Nat) (rest : List Nat) : State :=
  match s.memWrite addr v with
  | none => s.raise .memoryOverflow addr
  | some t => (t.withStack rest).advance m

/-- STORE addr (R170): the value is popped, the address is inline. -/
def execStore (addr : Nat) (s : State) : Outcome :=
  .next (s.withTop fun a rest => s.storeWord .store addr a rest)

/-- LOAD addr (R171): UNALLOCATED_READ before STACK_OVERFLOW (R234). -/
def execLoad (addr : Nat) (s : State) : Outcome :=
  .next (match s.mem.read addr with
    | none => s.raise .unallocatedRead addr
    | some v =>
      if s.stackFull then s.raise .stackOverflow addr
      else (s.withStack (v :: s.stack)).advance .load)

/-- SSTORE (R172): the address is the top, the value under it. -/
def execSstore (s : State) : Outcome :=
  .next (s.withTopTwo fun addr value rest => s.storeWord .sstore addr value rest)

/-- SLOAD (R173): the address on top is replaced by the word it names; it stays on a fault. -/
def execSload (s : State) : Outcome :=
  .next (s.withTop fun addr rest =>
    match s.mem.read addr with
    | none => s.raise .unallocatedRead addr
    | some v => (s.withStack (v :: rest)).advance .sload)

end Sys2Proof.Machine
end

