-- ==== Sys2Proof/Machine/Arith.lean ====
section
/-! DEFINITION. Word arithmetic (40_stack_arith.md R120, R121): the ring operations of the integers modulo
`2^W`, and unsigned division on the natural numbers. -/

namespace Sys2Proof.Machine

/-- `(a + b) mod 2^W` (R113, R118) -/
def addWord (W : Nat) (a b : Nat) : Nat := (a + b) % 2 ^ W

/-- `(a - b) mod 2^W` over the integers (R114, R119) -/
def subWord (W : Nat) (a b : Nat) : Nat := (((a : Int) - (b : Int)) % ((2 ^ W : Nat) : Int)).toNat

/-- `(a * b) mod 2^W`: the low W bits of the product (R115) -/
def mulWord (W : Nat) (a b : Nat) : Nat := (a * b) % 2 ^ W

/-- `floor(a / b)` for `b != 0` (R116, R121) -/
def divWord (a b : Nat) : Nat := a / b

/-- `a - b * floor(a / b)` for `b != 0` (R117, R121) -/
def modWord (a b : Nat) : Nat := a - b * (a / b)

end Sys2Proof.Machine
end

