-- ==== Sys2Proof/Machine/StackArith.lean ====
section
/-! DEFINITION. The stack and arithmetic instructions (40_stack_arith.md). -/

namespace Sys2Proof.Machine

/-- The common rule of ADD, SUB and MUL (R112): `b` is the top, `a` the word under it, the result is
`a op b`. -/
def State.binop (s : State) (m : Opcode) (op : Nat → Nat → Nat) : State :=
  s.withTopTwo fun b a rest => (s.withStack (op a b :: rest)).advance m

/-- The common rule of DIV and MOD (R112, R116, R117): as `binop`, and DIVIDE_BY_ZERO(a) with both
operands left on the stack when the top is 0 (R241). -/
def State.divop (s : State) (m : Opcode) (op : Nat → Nat → Nat) : State :=
  s.withTopTwo fun b a rest =>
    if b = 0 then s.raise .divideByZero a else (s.withStack (op a b :: rest)).advance m

/-- The common rule of INC and DEC (R118, R119): the top is replaced. -/
def State.unop (s : State) (m : Opcode) (op : Nat → Nat) : State :=
  s.withTop fun a rest => (s.withStack (op a :: rest)).advance m

/-- PUSH v (R110) -/
def execPush (v : Nat) (s : State) : Outcome :=
  .next (if s.stackFull then s.raise .stackOverflow v
    else (s.withStack (v :: s.stack)).advance .push)

/-- POP (R111) -/
def execPop (s : State) : Outcome :=
  .next (s.withTop fun _ rest => (s.withStack rest).advance .pop)

/-- ADD (R113) -/
def execAdd (s : State) : Outcome := .next (s.binop .add (addWord s.params.W))

/-- SUB (R114) -/
def execSub (s : State) : Outcome := .next (s.binop .sub (subWord s.params.W))

/-- MUL (R115) -/
def execMul (s : State) : Outcome := .next (s.binop .mul (mulWord s.params.W))

/-- DIV (R116) -/
def execDiv (s : State) : Outcome := .next (s.divop .div divWord)

/-- MOD (R117) -/
def execMod (s : State) : Outcome := .next (s.divop .mod modWord)

/-- INC (R118) -/
def execInc (s : State) : Outcome := .next (s.unop .inc fun a => addWord s.params.W a 1)

/-- DEC (R119) -/
def execDec (s : State) : Outcome := .next (s.unop .dec fun a => subWord s.params.W a 1)

end Sys2Proof.Machine
end

