-- ==== Sys2Proof/Machine/Dispatch.lean ====
section
/-! DEFINITION. One arm per instruction: step 6 of the cycle (30_encoding.md R90). -/

namespace Sys2Proof.Machine

def exec (i : Instr) (s : State) : Host.Outcome State Fault Refusal :=
  match i with
  | .push v => Sys2Proof.Machine.execPush v s
  | .pop => Sys2Proof.Machine.execPop s
  | .add => Sys2Proof.Machine.execAdd s
  | .sub => Sys2Proof.Machine.execSub s
  | .mul => Sys2Proof.Machine.execMul s
  | .div => Sys2Proof.Machine.execDiv s
  | .mod => Sys2Proof.Machine.execMod s
  | .inc => Sys2Proof.Machine.execInc s
  | .dec => Sys2Proof.Machine.execDec s
  | .jge cmp addr => Sys2Proof.Machine.execJge cmp addr s
  | .jgt cmp addr => Sys2Proof.Machine.execJgt cmp addr s
  | .jle cmp addr => Sys2Proof.Machine.execJle cmp addr s
  | .jlt cmp addr => Sys2Proof.Machine.execJlt cmp addr s
  | .jeq cmp addr => Sys2Proof.Machine.execJeq cmp addr s
  | .jmp addr => Sys2Proof.Machine.execJmp addr s
  | .out => Sys2Proof.Machine.execOut s
  | .inLine size addr => Sys2Proof.Machine.execIn size addr s
  | .dbg => Sys2Proof.Machine.execDbg s
  | .store addr => Sys2Proof.Machine.execStore addr s
  | .load addr => Sys2Proof.Machine.execLoad addr s
  | .sstore => Sys2Proof.Machine.execSstore s
  | .sload => Sys2Proof.Machine.execSload s
  | .halt => Sys2Proof.Machine.execHalt s

end Sys2Proof.Machine
end

