-- ==== Sys2Proof/Machine/Fetch.lean ====
section
/-! DEFINITION. Steps 1 to 5 of the instruction cycle (30_encoding.md R90): the end-of-stream test, the opcode
fetch, the trace event and the decode. -/

namespace Sys2Proof.Machine

/-- What steps 1 to 5 lead to. -/
inductive Fetched where
  /-- no instruction runs in this step, which ends in `t` -/
  | settled (t : State)
  /-- instruction `i` runs on `t` (step 6) -/
  | instr (i : Instr) (t : State)
deriving DecidableEq, Repr

/-- Step 3: one `Trace` event when tracing (R200). A cycle that goes on waiting inside IN has emitted its
event already (notes/assumptions/6.md). -/
def State.traceFetch (s : State) (op : Nat) : State :=
  if s.trace && !s.waiting then s.emit [.trace op s.top] else s

/-- The words from `ip` on, the opcode word first: steps 2 to 5. -/
def State.fetchOpcode (s : State) (op : Nat) (rest : List Nat) : Fetched :=
  match decode s.params op rest with
  | .invalid w => .settled ((s.traceFetch op).endWait.raise .invalidInstruction w)
  | .truncated _ w => .settled ((s.traceFetch op).endWait.raise .truncatedInstruction w)
  | .instr i => .instr i (s.traceFetch op).endWait

/-- Steps 1 to 5 for a running engine; IDLE and FAULTED engines execute nothing (R32). -/
def State.fetch (s : State) : Fetched :=
  match s.run with
  | .idle => .settled s
  | .faulted => .settled s
  | .running =>
    match s.stream.drop s.ip with
    | [] => .settled (s.endRun .endOfStream)
    | op :: rest => s.fetchOpcode op rest

/-- Overwrites the stream from index `i` on with `ws`, zeros filling a gap before `i`. -/
def placeWords (stream : List Nat) (i : Nat) (ws : List Nat) : List Nat :=
  (stream ++ List.replicate (i - stream.length) 0).take i ++ ws ++ stream.drop (i + ws.length)

/-- The instruction bits `w` of a table row stored at `ip`, and the engine RUNNING as after an accepted
EXECUTE (R193), so that the next cycle fetches exactly them (notes/assumptions/9.md). -/
def State.placeInstruction (s : State) (nbits w : Nat) : State :=
  { s with
    stream := placeWords s.stream s.ip (tableWords s.params.W nbits w),
    run := .running, stop := .none, waiting := false }

end Sys2Proof.Machine
end

