-- ==== Sys2Proof/Machine/Step.lean ====
section
/-! DEFINITION. One step of the engine: one cycle of 30_encoding.md R90 while it runs, nothing otherwise. -/

namespace Sys2Proof.Machine

/-- One cycle (R90). The outcomes of R13: the next instruction's state, a fault (a state with the fault
record written), a stop (a state that is IDLE again), a wait (a state with `waiting`). -/
def step (s : State) : Host.Outcome State Fault Refusal :=
  match s.fetch with
  | .settled t => .next t
  | .instr i t => exec i t

/-- `s` with the table bits `w` stored where the next step fetches (see `State.placeInstruction`). -/
def State.withFetchWord (s : State) (nbits w : Nat) : State := s.placeInstruction nbits w

end Sys2Proof.Machine
end

