-- ==== Sys2Proof/WellFormed.lean ====
section
/-! DEFINITION. Well-formed instructions: "each operand must be a word, `0 <= o < 2^W`" (30_encoding.md
R87). Any word value is a legal operand (R89). -/

namespace Sys2Proof

/-- Every inline operand of the instruction is a word (R87). -/
def Instr.wellFormed (p : Params) : Instr → Bool
  | .push v => isWord p.W v
  | .pop => true
  | .add => true
  | .sub => true
  | .mul => true
  | .div => true
  | .mod => true
  | .inc => true
  | .dec => true
  | .jge cmp addr => isWord p.W cmp && isWord p.W addr
  | .jgt cmp addr => isWord p.W cmp && isWord p.W addr
  | .jle cmp addr => isWord p.W cmp && isWord p.W addr
  | .jlt cmp addr => isWord p.W cmp && isWord p.W addr
  | .jeq cmp addr => isWord p.W cmp && isWord p.W addr
  | .jmp addr => isWord p.W addr
  | .out => true
  | .inLine size addr => isWord p.W size && isWord p.W addr
  | .dbg => true
  | .store addr => isWord p.W addr
  | .load addr => isWord p.W addr
  | .sstore => true
  | .sload => true
  | .halt => true

end Sys2Proof
end

