-- ==== Sys2Proof/Machine/HostInterface.lean ====
section
/-! DEFINITION. Everything the outside can do to the engine (44_host_interface.md): the eleven host commands with
their acceptance table, the persisted format, and the events of the input source (42_io.md R154). None of
it is an engine step; it lands between steps (notes/assumptions/10.md). -/

namespace Sys2Proof.Machine

/-- The code of an Error State value under the parameter ERRCODE (R30). -/
def errorCode (p : Params) : ErrorState → Nat
  | .noError => p.errCode.getD 0 0
  | .fileOpen => p.errCode.getD 1 0
  | .versionMismatch => p.errCode.getD 2 0
  | .wordSizeMismatch => p.errCode.getD 3 0
  | .invalidInstruction => p.errCode.getD 4 0

/-- What the host gives SAVE: a sink, or "open failed" (R203). -/
inductive Sink where
  | ok
  | openFailed
deriving DecidableEq, Repr

/-- What the host gives LOAD: a byte sequence, or "open failed" (R205). -/
inductive Source where
  | bytes (bs : List Byte)
  | openFailed
deriving DecidableEq, Repr

/-- The eleven host commands (R192). EMIT carries a mnemonic with its operand words (R190). -/
inductive Command where
  | emit (i : Instr)
  | execute
  | clear
  | reset
  | peek
  | getIp
  | setTrace (bit : Bool)
  | getError
  | getStatus
  | save (sink : Sink)
  | load (src : Source)
deriving DecidableEq, Repr

/-- The response column of R192. EXECUTE answers `started` here and its stop reason when the run has
ended: `State.executeResponse`. -/
inductive Response where
  | ok
  | full
  | fail
  | refused
  | started
  | stopped (r : StopReason)
  | top (t : Option Nat)
  | ip (n : Nat)
  | error (e : ErrorState)
  | status (run : RunState) (stop : StopReason) (fault : FaultCode) (faultIp : Nat) (faultVal : Nat)
  | bytes (bs : List Byte)
deriving DecidableEq, Repr

/-- The "accepted when `run` is" column of R192. -/
def Command.accepted : Command → RunState → Bool
  | _, .running => false
  | _, .idle => true
  | .emit _, .faulted => false
  | .execute, .faulted => false
  | .clear, .faulted => true
  | .reset, .faulted => true
  | .peek, .faulted => true
  | .getIp, .faulted => true
  | .setTrace _, .faulted => true
  | .getError, .faulted => true
  | .getStatus, .faulted => true
  | .save _, .faulted => false
  | .load _, .faulted => false

/-- The host can only send operand words (R87, R190): an EMIT of anything else is no command of this
interface (notes/assumptions/11.md). -/
def Command.wellFormed (p : Params) : Command → Bool
  | .emit i => i.wellFormed p
  | .execute => true
  | .clear => true
  | .reset => true
  | .peek => true
  | .getIp => true
  | .setTrace _ => true
  | .getError => true
  | .getStatus => true
  | .save _ => true
  | .load _ => true

/-- Appends words to the stream if STREAM_CAP allows it, else `full` with nothing appended (R190, R205,
R208). -/
def State.appendWords (s : State) (ws : List Nat) : Response × State :=
  if s.params.streamCap < s.slen + ws.length then (.full, s)
  else (.ok, { s with stream := s.stream ++ ws })

/-- EXECUTE's start: `run <- RUNNING ; stop <- NONE` (R193). The cycles are `step`. -/
def State.startRun (s : State) : State := { s with run := .running, stop := .none, waiting := false }

/-- EXECUTE's response (R193): the stop reason, once the engine has left RUNNING. -/
def State.executeResponse (s : State) : Option Response :=
  match s.run with
  | .running => none
  | .idle => some (.stopped s.stop)
  | .faulted => some (.stopped s.stop)

/-- The header of a saved stream: version, word size in bytes, sixteen reserved zero bytes (R207). -/
def fileHeader (p : Params) : List Byte :=
  [p.bcVersion, BitVec.ofNat 8 p.B] ++ List.replicate 16 0

/-- The persisted format: the header, then every word most significant byte first (R203, R207). -/
def fileBytes (p : Params) (stream : List Nat) : List Byte :=
  fileHeader p ++ stream.flatMap (unpack p.W)

/-- SAVE (R203, R204). -/
def State.save (s : State) : Sink → Response × State
  | .openFailed => (.fail, { s with err := .fileOpen })
  | .ok => (.bytes (fileBytes s.params s.stream), s)

/-- The words of a file body: `floor(length / B)` of them, "a trailing partial word is dropped" (R205). -/
def bodyWords (W : Nat) (body : List Byte) : List Nat :=
  (List.range (body.length / (W / 8))).map fun j => joinBytes W (body.drop (j * (W / 8)))

/-- The header checks of LOAD in their order (R205, R206, R208): the Error State a bad header leaves, or
`none`. The reserved bytes are not looked at. -/
def headerError (p : Params) (bs : List Byte) : Option ErrorState :=
  match bs with
  | [] => some .versionMismatch
  | version :: rest =>
    if version ≠ p.bcVersion then some .versionMismatch
    else match rest with
      | [] => some .wordSizeMismatch
      | size :: _ => if size.toNat ≠ p.B then some .wordSizeMismatch else none

/-- LOAD (R205, R206, R208): appends the file's words; a failure writes only `err`. -/
def State.load (s : State) : Source → Response × State
  | .openFailed => (.fail, { s with err := .fileOpen })
  | .bytes bs =>
    match headerError s.params bs with
    | some e => (.fail, { s with err := e })
    | none => s.appendWords (bodyWords s.params.W (bs.drop 18))

/-- The effect of an accepted command (R192). -/
def State.perform (s : State) : Command → Response × State
  | .emit i => s.appendWords (encode s.params i)
  | .execute => (.started, s.startRun)
  | .clear => (.ok, s.clearEngine)
  | .reset => (.ok, s.resetEngine)
  | .peek => (.top s.top, s)
  | .getIp => (.ip s.ip, s)
  | .setTrace bit => (.ok, { s with trace := bit })
  | .getError => (.error s.err, s)
  | .getStatus => (.status s.run s.stop s.fault s.faultIp s.faultVal, s)
  | .save sink => s.save sink
  | .load src => s.load src

/-- A host command: its whole effect, or `refused` with no effect on any state (R191). -/
def hostCommand (c : Command) (s : State) : Response × State :=
  if c.accepted s.run && c.wellFormed s.params then s.perform c else (.refused, s)

/-! ### The input source -/

/-- The input source delivers one more line (R154); it may do so at any time. -/
def State.deliverLine (s : State) (line : List Byte) : State :=
  { s with input := { s.input with lines := s.input.lines ++ [line] } }

/-- The input ends for good (R154, D15): EOF_POLICY says what later reads get. -/
def State.endInput (s : State) : State := { s with input := { s.input with ended := true } }

end Sys2Proof.Machine
end

