-- ==== Sys2Proof/Machine/Assembler.lean ====
section
/-! DEFINITION. The assembler's text syntax and its translation to EMIT commands (30_encoding.md R96 to R107).
It is software in front of the engine (00_scope.md R5). Source text is a list of 8-bit characters; the
character codes are ASCII (93_implementation_defined.md G3, G4; notes/assumptions/15.md). -/

namespace Sys2Proof.Machine

/-- Tokens (R97). -/
inductive Token where
  | identifier (text : List Byte)
  | integer (text : List Byte) (value : Nat)
  | character (value : Byte)
  | endOfLine
  | endOfInput
  | unknown (c : Byte)
deriving DecidableEq, Repr

/-- The space, 0x20 (R98). -/
def isSpace (c : Byte) : Bool := c = 0x20

/-- The line feed, 0x0A (R98, R102). -/
def isLineFeed (c : Byte) : Bool := c = 0x0A

/-- Letters start an identifier (R99). -/
def isLetter (c : Byte) : Bool :=
  (0x61 ≤ c.toNat && c.toNat ≤ 0x7A) || (0x41 ≤ c.toNat && c.toNat ≤ 0x5A)

/-- Decimal digits (R100). -/
def isDigit (c : Byte) : Bool := 0x30 ≤ c.toNat && c.toNat ≤ 0x39

/-- The apostrophe of a character literal (R101). -/
def apostrophe : Byte := 0x27

/-- Value of a run of decimal digits (R100). -/
def decimalValue (ds : List Byte) : Nat := ds.foldl (fun n d => 10 * n + (d.toNat - 0x30)) 0

/-- The textual form of a token (R97): the characters of the source text it was read from, the line feed for
an end of line, none for the end of the input (notes/assumptions/23.md). -/
def Token.text : Token → List Byte
  | .identifier text => text
  | .integer text _ => text
  | .character value => [apostrophe, value, apostrophe]
  | .endOfLine => [0x0A]
  | .endOfInput => []
  | .unknown c => [c]

/-- The next token and the text after it (R98 to R102): spaces are skipped, "single-character lookahead".
DESIGN CHOICE: no space is required between two tokens, so that `push'A'` is read as `push 'A'`
(notes/assumptions/22.md). -/
def nextToken (src : List Byte) : Token × List Byte :=
  match src.dropWhile isSpace with
  | [] => (.endOfInput, [])
  | c :: rest =>
    if isLineFeed c then (.endOfLine, rest)
    else if isLetter c then
      (.identifier (c :: rest.takeWhile fun d => isLetter d || isDigit d),
        rest.dropWhile fun d => isLetter d || isDigit d)
    else if isDigit c then
      (.integer (c :: rest.takeWhile isDigit) (decimalValue (c :: rest.takeWhile isDigit)),
        rest.dropWhile isDigit)
    else if c = apostrophe then
      match rest with
      | x :: q :: rest' =>
        if q = apostrophe && !isLineFeed x then (.character x, rest') else (.unknown c, rest)
      | _ => (.unknown c, rest)
    else (.unknown c, rest)

/-- What an operand position accepts: "integer-or-character for value operands, integer-only for address
operands" (R103). -/
inductive OperandKind where
  | value
  | address
deriving DecidableEq, Repr

/-- The characters of a mnemonic as source text: its spelling in lower case (R99, R103). -/
def mnemonicText : Opcode → List Byte
  | .push => [0x70, 0x75, 0x73, 0x68]
  | .pop => [0x70, 0x6F, 0x70]
  | .add => [0x61, 0x64, 0x64]
  | .sub => [0x73, 0x75, 0x62]
  | .mul => [0x6D, 0x75, 0x6C]
  | .div => [0x64, 0x69, 0x76]
  | .mod => [0x6D, 0x6F, 0x64]
  | .inc => [0x69, 0x6E, 0x63]
  | .dec => [0x64, 0x65, 0x63]
  | .jge => [0x6A, 0x67, 0x65]
  | .jgt => [0x6A, 0x67, 0x74]
  | .jle => [0x6A, 0x6C, 0x65]
  | .jlt => [0x6A, 0x6C, 0x74]
  | .jeq => [0x6A, 0x65, 0x71]
  | .jmp => [0x6A, 0x6D, 0x70]
  | .out => [0x6F, 0x75, 0x74]
  | .inLine => [0x69, 0x6E]
  | .dbg => [0x64, 0x62, 0x67]
  | .store => [0x73, 0x74, 0x6F, 0x72, 0x65]
  | .load => [0x6C, 0x6F, 0x61, 0x64]
  | .sstore => [0x73, 0x73, 0x74, 0x6F, 0x72, 0x65]
  | .sload => [0x73, 0x6C, 0x6F, 0x61, 0x64]
  | .halt => [0x68, 0x61, 0x6C, 0x74]

/-- "A recognized mnemonic identifier" (R104), compared exactly (R99). -/
def mnemonicOf (text : List Byte) : Option Opcode :=
  Opcode.all.find? fun m => mnemonicText m == text

/-- One operand token of the wanted kind, its value a word: "a literal whose value is `2^W` or more is
rejected" (R100, R103). `none` is a kind mismatch or a missing operand (R105). -/
def operandValue (p : Params) (k : OperandKind) (t : Token) : Option Nat :=
  match t, k with
  | .integer _ v, _ => if v < 2 ^ p.W then some v else none
  | .character c, .value => if c.toNat < 2 ^ p.W then some c.toNat else none
  | _, _ => none

/-- A mnemonic with one operand (R103). -/
def parseOne (p : Params) (k : OperandKind) (mk : Nat → Instr) (src : List Byte) :
    Option (Instr × List Byte) :=
  match operandValue p k (nextToken src).1 with
  | some o => some (mk o, (nextToken src).2)
  | none => none

/-- A mnemonic with two operands, the second an address (R103). -/
def parseTwo (p : Params) (k : OperandKind) (mk : Nat → Nat → Instr) (src : List Byte) :
    Option (Instr × List Byte) :=
  match operandValue p k (nextToken src).1 with
  | none => none
  | some o1 =>
    match operandValue p .address (nextToken (nextToken src).2).1 with
    | none => none
    | some o2 => some (mk o1 o2, (nextToken (nextToken src).2).2)

/-- "Reads the declared number of follow-up tokens for that mnemonic and validates their kinds" (R103,
R104): the instruction and the text after its operands. -/
def parseOperands (p : Params) (m : Opcode) (src : List Byte) : Option (Instr × List Byte) :=
  match m with
  | .push => parseOne p .value .push src
  | .pop => some (.pop, src)
  | .add => some (.add, src)
  | .sub => some (.sub, src)
  | .mul => some (.mul, src)
  | .div => some (.div, src)
  | .mod => some (.mod, src)
  | .inc => some (.inc, src)
  | .dec => some (.dec, src)
  | .jge => parseTwo p .value .jge src
  | .jgt => parseTwo p .value .jgt src
  | .jle => parseTwo p .value .jle src
  | .jlt => parseTwo p .value .jlt src
  | .jeq => parseTwo p .value .jeq src
  | .jmp => parseOne p .address .jmp src
  | .out => some (.out, src)
  | .inLine => parseTwo p .address .inLine src
  | .dbg => some (.dbg, src)
  | .store => parseOne p .address .store src
  | .load => parseOne p .address .load src
  | .sstore => some (.sstore, src)
  | .sload => some (.sload, src)
  | .halt => some (.halt, src)

/-- Why parsing stopped (R104, R105); the message texts are not given (91 N18). -/
inductive AsmError where
  /-- the line's first token is no recognized mnemonic -/
  | badMnemonic
  /-- missing operand, wrong kind, lexical error in an operand, or a literal out of range -/
  | badOperand
  /-- a token after the complete instruction -/
  | extraToken
deriving DecidableEq, Repr

/-- The result of assembling (R105, R107): the instructions sent as EMITs, in order, and success
(`none`) or the first error with its line number, counted from 1 (R96). -/
structure Assembly where
  emitted : List Instr
  error : Option (Nat × AsmError)
deriving DecidableEq, Repr

/-- Lines from number `line` on, with `sent` already emitted. `fuel` bounds the number of lines. The EMIT
of a line comes before its end-of-line check (R104, D24). -/
def assembleLines (p : Params) : Nat → Nat → List Instr → List Byte → Assembly
  | 0, _, sent, _ => { emitted := sent, error := none }
  | fuel + 1, line, sent, src =>
    match nextToken src with
    | (.endOfInput, _) => { emitted := sent, error := none }
    | (.endOfLine, rest) => assembleLines p fuel (line + 1) sent rest
    | (.identifier text, rest) =>
      match mnemonicOf text with
      | none => { emitted := sent, error := some (line, .badMnemonic) }
      | some m =>
        match parseOperands p m rest with
        | none => { emitted := sent, error := some (line, .badOperand) }
        | some (i, rest') =>
          match nextToken rest' with
          | (.endOfInput, _) => { emitted := sent ++ [i], error := none }
          | (.endOfLine, rest'') => assembleLines p fuel (line + 1) (sent ++ [i]) rest''
          | _ => { emitted := sent ++ [i], error := some (line, .extraToken) }
    | _ => { emitted := sent, error := some (line, .badMnemonic) }

/-- The assembler (R96 to R107): "parsing stops at the first error"; "an empty input is vacuously
successful". Every line takes at least one character of the text, so the fuel is enough. -/
def assemble (p : Params) (src : List Byte) : Assembly := assembleLines p (src.length + 1) 1 [] src

/-- Sends the assembler's EMIT commands to the engine in order (R5, R104). What the assembler does when
EMIT answers `full` or `refused` is not said; the responses are not looked at
(notes/assumptions/17.md). -/
def emitAll (s : State) : List Instr → State
  | [] => s
  | i :: is => emitAll (hostCommand (.emit i) s).2 is

end Sys2Proof.Machine
end

