-- ==== Sys2Proof/Machine/Execute.lean ====
section
/-! DEFINITION. Runs of the engine: EXECUTE repeats the cycle until the engine leaves RUNNING
(44_host_interface.md R193). -/

namespace Sys2Proof.Machine

/-- `n` steps. A step always answers a next state; the other two outcomes would leave `s` where it is. -/
def State.steps (s : State) : Nat → State
  | 0 => s
  | n + 1 =>
    match step s with
    | .next t => t.steps n
    | .fault _ => s
    | .refused _ => s

/-- "EXECUTE ... runs cycles until a stop or a fault" (R192, R193): accepted by `s`, it ends in `t` after
some number of cycles, having been RUNNING until then. It may also never end. -/
def State.executeEndsIn (s t : State) : Prop :=
  (hostCommand .execute s).1 = .started ∧
    ∃ n, (hostCommand .execute s).2.steps n = t ∧ t.run ≠ .running ∧
      ∀ k < n, ((hostCommand .execute s).2.steps k).run = .running

end Sys2Proof.Machine
end

