-- ==== Sys2Proof/Safety.lean ====
section
/-! DEFINITION. The invariant of the engine, in the spec's own bounds, and what a run without a fault is. -/

namespace Sys2Proof.Machine

/-- All words the engine holds are words of the build (00_scope.md R8, R9). -/
abbrev State.wordsInRange (s : State) : Prop :=
  (∀ w ∈ s.stream, w < 2 ^ s.params.W) ∧ (∀ w ∈ s.stack, w < 2 ^ s.params.W) ∧
  (∀ c ∈ s.mem.cells, c.2 < 2 ^ s.params.W)

/-- The capacities (10_state.md R20, R22, R23). -/
abbrev State.withinCaps (s : State) : Prop :=
  s.slen ≤ s.params.streamCap ∧ (∀ cap ∈ s.params.stackCap, s.depth ≤ cap) ∧
  s.mem.mlen ≤ s.params.memCap

/-- `run`, `stop` and the fault record belong together (R32 to R34, R232): FAULTED, `stop = FAULT` and a
recorded fault come and go together, a recorded fault points at `ip`, an empty record is (NONE, 0, 0),
a running engine has no stop reason, and only a running engine waits. -/
abbrev State.statusCoherent (s : State) : Prop :=
  (s.run = .faulted ↔ s.fault ≠ .none) ∧ (s.run = .faulted ↔ s.stop = .fault) ∧
  (s.run = .faulted → s.faultIp = s.ip) ∧
  (s.fault = .none → s.faultIp = 0 ∧ s.faultVal = 0) ∧
  (s.run = .running → s.stop = .none) ∧ (s.waiting = true → s.run = .running)

/-- The invariant of the machine: a legal build, memory in canonical form, words in range, the
capacities kept, `0 <= ip <= slen` (R24), a coherent status, and an Error State that is never
INVALID_INSTRUCTION (R29, R249). -/
abbrev State.Inv (s : State) : Prop :=
  s.params.Valid ∧ s.mem.wf ∧ s.wordsInRange ∧ s.withinCaps ∧ s.ip ≤ s.slen ∧ s.statusCoherent ∧
  s.err ≠ .invalidInstruction

/-- No fault is recorded: what a safe run keeps (R231, R248). -/
abbrev State.noFault (s : State) : Prop := s.run ≠ .faulted

end Sys2Proof.Machine
end

