-- ==== Sys2Proof/Certificates/Slice0/Obligations.lean ====
section
/-! DEFINITION. The statements for the provers. The parameters of the build are a field of the state, so "for
every state" is also "for every build" (notes/assumptions/2.md). A next state written as a record update
of `s` says the whole frame: every other field, all of memory among them, is as before. `waiting` is the
model's own flag (notes/assumptions/6.md): where a rule says nothing of it, the statement leaves it to the
next state. -/

open Sys2Proof Sys2Proof.Machine

namespace Sys2Proof.Claims

/-- `m'` is `m` after one word `v` is written at `a` (20_memory.md R53), said through the read of every
address: `a` reads `v`, an allocated address reads as before, an address below `a` that the write
allocated reads 0, and nothing else can be read. -/
def writtenAt (m m' : Memory) (a : Nat) (v : Nat) : Prop :=
  m'.wf ∧ m'.mlen = max m.mlen (a + 1) ∧
    ∀ x, m'.read x =
      if x = a then some v
      else if x < m.mlen then m.read x
      else if x < a then some 0
      else none

/-- `m'` is `m` after IN stored the words `ws` of its line (42_io.md R153): address `addr + size` reads
0, the first `min(size, n)` words lie from `addr` on, and every other address reads as before, or 0
if the write allocated it. -/
def lineStored (m m' : Memory) (size addr : Nat) (ws : List Nat) : Prop :=
  m'.wf ∧ m'.mlen = max m.mlen (addr + size + 1) ∧
    ∀ x, m'.read x =
      if x = addr + size then some 0
      else if addr ≤ x ∧ x < addr + min size ws.length then ws[x - addr]?
      else if x < m.mlen then m.read x
      else if x < addr + size then some 0
      else none

/-- A line read gives `line` and leaves the input source at `inp` (42_io.md R154): the oldest delivered
line, or, after the end of the input under EOF_POLICY `empty`, an empty line. -/
def lineRead (s : State) (line : List Byte) (inp : InputSource) : Prop :=
  (s.input.lines = line :: inp.lines ∧ inp.ended = s.input.ended) ∨
  (s.input.lines = [] ∧ s.input.ended = true ∧ s.params.eofPolicy = .empty ∧
    line = [] ∧ inp = s.input)

/-- No line is available and a line read has to wait (42_io.md R154). -/
def lineAwaited (s : State) : Prop :=
  s.input.lines = [] ∧ ¬(s.input.ended = true ∧ s.params.eofPolicy = .empty)

/-- The operand stack has room for one more word (10_state.md R22). -/
def hasRoom (s : State) : Prop := ∀ cap, s.params.stackCap = some cap → s.depth < cap

/-- The operand stack is full (10_state.md R22); never so when STACK_CAP is unbounded. -/
def isFull (s : State) : Prop := ∃ cap, s.params.stackCap = some cap ∧ cap ≤ s.depth

/-- The stack words each instruction needs (60_exceptions.md R240); the others need none. -/
def stackNeed : List (Opcode × Nat) :=
  [(.add, 2), (.sub, 2), (.mul, 2), (.div, 2), (.mod, 2), (.sstore, 2), (.pop, 1), (.inc, 1),
   (.dec, 1), (.jge, 1), (.jgt, 1), (.jle, 1), (.jlt, 1), (.jeq, 1), (.out, 1), (.dbg, 1),
   (.store, 1), (.sload, 1)]

/-- The five conditional jumps: constructor, mnemonic, default number, and the relation of the stack top
(left) to `cmp` (right) under which they are taken (41_control.md R131 to R135). -/
def conditionalJumps : List ((Nat → Nat → Instr) × Opcode × Nat × (Nat → Nat → Prop)) :=
  [(.jge, .jge, 9, fun t c => t ≥ c), (.jgt, .jgt, 10, fun t c => t > c),
   (.jle, .jle, 11, fun t c => t ≤ c), (.jlt, .jlt, 12, fun t c => t < c),
   (.jeq, .jeq, 13, fun t c => t = c)]

/-- The trace event of a cycle that starts in `s`, if one is emitted (44_host_interface.md R200); a cycle
that goes on waiting inside IN has emitted it already (notes/assumptions/6.md). -/
def traceEvents (s : State) : List Event :=
  if s.trace && !s.waiting then [.trace (s.stream.getD s.ip 0) s.top] else []

/-- A word as decimal digits in source text (30_encoding.md R100). -/
def decimalText (v : Nat) : List Byte :=
  if v = 0 then [0x30] else (Nat.digits 10 v).reverse.map fun d => BitVec.ofNat 8 (0x30 + d)

/-- One instruction as a line of assembler text (30_encoding.md R96, R103): the mnemonic, each operand
after one space, a line feed. -/
def listingLine (i : Instr) : List Byte :=
  mnemonicText i.opcode ++ (i.operands.flatMap fun o => 0x20 :: decimalText o) ++ [0x0A]

end Sys2Proof.Claims

open Sys2Proof.Claims

/-! ### Stack and arithmetic -/

/-- R110 -/
def Obligations.PushPlacesItsOperand : Prop :=
  ∀ (v : Nat) (s : State),
    encode s.params (.push v) = [s.params.opcodeNumber .push, v] ∧
    Params.default.opcodeNumber .push = 0 ∧
    (hasRoom s → exec (.push v) s = .next { s with stack := v :: s.stack, ip := s.ip + 2 }) ∧
    (isFull s → exec (.push v) s = .next (s.raise .stackOverflow v))

/-- R111 -/
def Obligations.PopDiscardsTheTop : Prop :=
  ∀ s : State,
    encode s.params .pop = [s.params.opcodeNumber .pop] ∧ Params.default.opcodeNumber .pop = 1 ∧
    (s.stack = [] → exec .pop s = .next (s.raise .stackUnderflow 0)) ∧
    ∀ t rest, s.stack = t :: rest → exec .pop s = .next { s with stack := rest, ip := s.ip + 1 }

/-- R113, R114, R115 -/
def Obligations.AddSubMulModuloWordCount : Prop :=
  ∀ s : State,
    (encode s.params .add = [s.params.opcodeNumber .add] ∧ Params.default.opcodeNumber .add = 2 ∧
      encode s.params .sub = [s.params.opcodeNumber .sub] ∧ Params.default.opcodeNumber .sub = 3 ∧
      encode s.params .mul = [s.params.opcodeNumber .mul] ∧ Params.default.opcodeNumber .mul = 4) ∧
    (s.depth < 2 →
      exec .add s = .next (s.raise .stackUnderflow s.depth) ∧
      exec .sub s = .next (s.raise .stackUnderflow s.depth) ∧
      exec .mul s = .next (s.raise .stackUnderflow s.depth)) ∧
    ∀ b a rest, s.stack = b :: a :: rest →
      exec .add s =
        .next { s with stack := (a + b) % 2 ^ s.params.W :: rest, ip := s.ip + 1 } ∧
      exec .sub s =
        .next { s with
          stack := (((a : Int) - (b : Int)) % (2 : Int) ^ s.params.W).toNat :: rest,
          ip := s.ip + 1 } ∧
      exec .mul s =
        .next { s with stack := (a * b) % 2 ^ s.params.W :: rest, ip := s.ip + 1 }

/-- R116, R117, R241 -/
def Obligations.DivModUnsignedOrFault : Prop :=
  ∀ s : State,
    (encode s.params .div = [s.params.opcodeNumber .div] ∧ Params.default.opcodeNumber .div = 5 ∧
      encode s.params .mod = [s.params.opcodeNumber .mod] ∧ Params.default.opcodeNumber .mod = 6) ∧
    (s.depth < 2 →
      exec .div s = .next (s.raise .stackUnderflow s.depth) ∧
      exec .mod s = .next (s.raise .stackUnderflow s.depth)) ∧
    (∀ a rest, s.stack = 0 :: a :: rest →
      exec .div s = .next (s.raise .divideByZero a) ∧
      exec .mod s = .next (s.raise .divideByZero a)) ∧
    ∀ b a rest, s.stack = b :: a :: rest → b ≠ 0 →
      exec .div s = .next { s with stack := a / b :: rest, ip := s.ip + 1 } ∧
      exec .mod s = .next { s with stack := (a - b * (a / b)) :: rest, ip := s.ip + 1 }

/-- R121: the quotient and the remainder belong together exactly, with no wrap. -/
def Obligations.DivModIdentity : Prop :=
  ∀ (s : State) (b a : Nat) (rest : List Nat), s.stack = b :: a :: rest →
    (b = 0 → exec .div s = .next (s.raise .divideByZero a) ∧
      exec .mod s = .next (s.raise .divideByZero a)) ∧
    (b ≠ 0 → ∃ q r,
      exec .div s = .next { s with stack := q :: rest, ip := s.ip + 1 } ∧
      exec .mod s = .next { s with stack := r :: rest, ip := s.ip + 1 } ∧
      a = b * q + r ∧ r < b)

/-- R118, R119 -/
def Obligations.IncDecModuloWordCount : Prop :=
  ∀ s : State,
    (encode s.params .inc = [s.params.opcodeNumber .inc] ∧ Params.default.opcodeNumber .inc = 7 ∧
      encode s.params .dec = [s.params.opcodeNumber .dec] ∧ Params.default.opcodeNumber .dec = 8) ∧
    (s.stack = [] →
      exec .inc s = .next (s.raise .stackUnderflow 0) ∧
      exec .dec s = .next (s.raise .stackUnderflow 0)) ∧
    ∀ a rest, s.stack = a :: rest →
      exec .inc s =
        .next { s with stack := (a + 1) % 2 ^ s.params.W :: rest, ip := s.ip + 1 } ∧
      exec .dec s =
        .next { s with
          stack := (((a : Int) - 1) % (2 : Int) ^ s.params.W).toNat :: rest, ip := s.ip + 1 }

/-! ### Control -/

/-- R130 to R135 -/
def Obligations.ConditionalJumpsPeekAndCompare : Prop :=
  ∀ (mk : Nat → Nat → Instr) (m : Opcode) (n : Nat) (rel : Nat → Nat → Prop),
    (mk, m, n, rel) ∈ conditionalJumps →
    ∀ (cmp addr : Nat) (s : State),
      encode s.params (mk cmp addr) = [s.params.opcodeNumber m, cmp, addr] ∧
      Params.default.opcodeNumber m = n ∧
      (s.stack = [] → exec (mk cmp addr) s = .next (s.raise .stackUnderflow 0)) ∧
      ∀ t rest, s.stack = t :: rest →
        (¬rel t cmp → exec (mk cmp addr) s = .next { s with ip := s.ip + 3 }) ∧
        (rel t cmp → addr ≤ s.slen → exec (mk cmp addr) s = .next { s with ip := addr }) ∧
        (rel t cmp → s.slen < addr →
          exec (mk cmp addr) s = .next (s.raise .jumpOutOfRange addr))

/-- R136 -/
def Obligations.JmpSetsIp : Prop :=
  ∀ (addr : Nat) (s : State),
    encode s.params (.jmp addr) = [s.params.opcodeNumber .jmp, addr] ∧
    Params.default.opcodeNumber .jmp = 14 ∧
    (addr ≤ s.slen → exec (.jmp addr) s = .next { s with ip := addr }) ∧
    (s.slen < addr → exec (.jmp addr) s = .next (s.raise .jumpOutOfRange addr))

/-- 41_control.md section 1: a target equal to slen is allowed, and the next cycle ends the EXECUTE. -/
def Obligations.JumpToTheEndEndsTheRun : Prop :=
  ∀ s : State, s.run = .running →
    ∃ t u, exec (.jmp s.slen) s = .next t ∧ step t = .next u ∧
      u = { s with ip := s.slen, run := .idle, stop := .endOfStream, waiting := u.waiting }

/-- R139 -/
def Obligations.HaltEndsTheRunPastItself : Prop :=
  ∀ s : State,
    encode s.params .halt = [s.params.opcodeNumber .halt] ∧
    Params.default.opcodeNumber .halt = 22 ∧
    ∃ t, exec .halt s = .next t ∧
      t = { s with ip := s.ip + 1, run := .idle, stop := .halted, waiting := t.waiting } ∧
      step t = .next t ∧ t.executeResponse = some (.stopped .halted)

/-! ### Input and output -/

/-- R152 -/
def Obligations.OutEmitsNonZeroBytes : Prop :=
  ∀ s : State,
    encode s.params .out = [s.params.opcodeNumber .out] ∧ Params.default.opcodeNumber .out = 15 ∧
    (s.stack = [] → exec .out s = .next (s.raise .stackUnderflow 0)) ∧
    ∀ t rest, s.stack = t :: rest →
      exec .out s =
        .next { s with
          output := s.output ++
            (((List.range (s.params.W / 8)).map fun k =>
              BitVec.ofNat 8 (t / 2 ^ (s.params.W - 8 - 8 * k))).filter (· ≠ 0)).map Event.char,
          ip := s.ip + 1 }

/-- R156 -/
def Obligations.DbgEmitsTheTop : Prop :=
  ∀ s : State,
    encode s.params .dbg = [s.params.opcodeNumber .dbg] ∧ Params.default.opcodeNumber .dbg = 17 ∧
    (s.stack = [] → exec .dbg s = .next (s.raise .stackUnderflow 0)) ∧
    ∀ t rest, s.stack = t :: rest →
      exec .dbg s = .next { s with output := s.output ++ [.dbg t], ip := s.ip + 1 }

/-- R153 -/
def Obligations.InStoresOneLine : Prop :=
  ∀ (size addr : Nat) (s : State),
    encode s.params (.inLine size addr) = [s.params.opcodeNumber .inLine, size, addr] ∧
    Params.default.opcodeNumber .inLine = 16 ∧
    (s.params.memCap ≤ addr + size →
      exec (.inLine size addr) s = .next (s.raise .memoryOverflow addr)) ∧
    (addr + size < s.params.memCap → lineAwaited s →
      ∃ t, exec (.inLine size addr) s = .next t ∧ t = { s with waiting := t.waiting }) ∧
    ∀ line inp, addr + size < s.params.memCap → s.mem.wf → lineRead s line inp →
      ∃ t, exec (.inLine size addr) s = .next t ∧
        t = { s with mem := t.mem, input := inp, ip := s.ip + 3, waiting := t.waiting } ∧
        lineStored s.mem t.mem size addr (pack s.params.W line)

/-- 42_io.md section 3: an IN that finds no line stays where it is; going on waiting changes nothing at
all and emits nothing, and when a line is delivered the same IN completes, its words and its terminator
stored where R153 says. The flag `waiting` is the model's (notes/assumptions/6.md). -/
def Obligations.InWaitsForALine : Prop :=
  ∀ (s : State) (size addr : Nat), s.run = .running →
    decodeAt s.params s.stream s.ip = some (.instr (.inLine size addr)) →
    addr + size < s.params.memCap → lineAwaited s →
    ∃ t, step s = .next t ∧
      t = { s with output := s.output ++ traceEvents s, waiting := true } ∧
      step t = .next t ∧
      ∀ line, ∃ u, step (t.deliverLine line) = .next u ∧
        u = { t with mem := u.mem, ip := s.ip + 3, waiting := false } ∧
        (s.mem.wf → lineStored s.mem u.mem size addr (pack s.params.W line))

/-! ### Memory -/

/-- R170 -/
def Obligations.StoreWritesAndPops : Prop :=
  ∀ (addr : Nat) (s : State),
    encode s.params (.store addr) = [s.params.opcodeNumber .store, addr] ∧
    Params.default.opcodeNumber .store = 18 ∧
    (s.stack = [] → exec (.store addr) s = .next (s.raise .stackUnderflow 0)) ∧
    ∀ a rest, s.stack = a :: rest →
      (s.params.memCap ≤ addr → exec (.store addr) s = .next (s.raise .memoryOverflow addr)) ∧
      (addr < s.params.memCap → s.mem.wf →
        ∃ m, exec (.store addr) s = .next { s with stack := rest, mem := m, ip := s.ip + 2 } ∧
          writtenAt s.mem m addr a)

/-- R171; an allocated cell that nothing wrote is one that is not listed (notes/assumptions/19.md). -/
def Obligations.LoadPushesTheCell : Prop :=
  ∀ (addr : Nat) (s : State),
    encode s.params (.load addr) = [s.params.opcodeNumber .load, addr] ∧
    Params.default.opcodeNumber .load = 19 ∧
    (s.mem.mlen ≤ addr → exec (.load addr) s = .next (s.raise .unallocatedRead addr)) ∧
    (addr < s.mem.mlen → isFull s →
      exec (.load addr) s = .next (s.raise .stackOverflow addr)) ∧
    (addr < s.mem.mlen → hasRoom s →
      ∃ v, s.mem.read addr = some v ∧ ((∀ w, (addr, w) ∉ s.mem.cells) → v = 0) ∧
        exec (.load addr) s = .next { s with stack := v :: s.stack, ip := s.ip + 2 })

/-- R172 -/
def Obligations.SstoreWritesAtTheTop : Prop :=
  ∀ s : State,
    encode s.params .sstore = [s.params.opcodeNumber .sstore] ∧
    Params.default.opcodeNumber .sstore = 20 ∧
    (s.depth < 2 → exec .sstore s = .next (s.raise .stackUnderflow s.depth)) ∧
    ∀ addr value rest, s.stack = addr :: value :: rest →
      (s.params.memCap ≤ addr → exec .sstore s = .next (s.raise .memoryOverflow addr)) ∧
      (addr < s.params.memCap → s.mem.wf →
        ∃ m, exec .sstore s = .next { s with stack := rest, mem := m, ip := s.ip + 1 } ∧
          writtenAt s.mem m addr value)

/-- R173; an allocated cell that nothing wrote is one that is not listed (notes/assumptions/19.md). -/
def Obligations.SloadReplacesTheAddress : Prop :=
  ∀ s : State,
    encode s.params .sload = [s.params.opcodeNumber .sload] ∧
    Params.default.opcodeNumber .sload = 21 ∧
    (s.stack = [] → exec .sload s = .next (s.raise .stackUnderflow 0)) ∧
    ∀ addr rest, s.stack = addr :: rest →
      (s.mem.mlen ≤ addr → exec .sload s = .next (s.raise .unallocatedRead addr)) ∧
      (addr < s.mem.mlen →
        ∃ v, s.mem.read addr = some v ∧ ((∀ w, (addr, w) ∉ s.mem.cells) → v = 0) ∧
          exec .sload s = .next { s with stack := v :: rest, ip := s.ip + 1 })

/-- Memory.wf is canonical: memories in that form that read alike at every address are equal data.
The form is the model's (notes/assumptions/19.md). -/
def Obligations.CanonicalMemoriesReadingAlikeAreEqual : Prop :=
  ∀ m m' : Memory, m.wf → m'.wf → (∀ x, m.read x = m'.read x) → m = m'

/-! ### Faults -/

/-- R240 -/
def Obligations.UnderflowOfEveryInstruction : Prop :=
  ∀ (i : Instr) (k : Nat) (s : State), (i.opcode, k) ∈ stackNeed → s.depth < k →
    exec i s = .next (s.raise .stackUnderflow s.depth)

/-- R232 -/
def Obligations.RaiseWritesTheFaultRecord : Prop :=
  ∀ (s : State) (f : FaultCode) (info : Nat),
    ∃ t, s.raise f info = t ∧
      t = { s with
        fault := f, faultIp := s.ip, faultVal := info, run := .faulted, stop := .fault,
        waiting := t.waiting } ∧
      t.executeResponse = some (.stopped .fault) ∧ step t = .next t

/-- R238 -/
def Obligations.FaultsArePrecise : Prop :=
  ∀ s t : State, s.run = .running → step s = .next t → t.run = .faulted →
    t.fault ≠ .none ∧
    t = { s with
      fault := t.fault, faultIp := s.ip, faultVal := t.faultVal, run := .faulted, stop := .fault,
      output := s.output ++ traceEvents s, waiting := t.waiting }

/-- 60_exceptions.md sections 1 and 2: only the instructions of the fault table raise its faults once
decoded, each for its cause and with its information word; a conditional jump only when it is taken. -/
def Obligations.FaultsHaveTheirCauses : Prop :=
  ∀ (i : Instr) (s t : State), s.run = .running → exec i s = .next t → t.run = .faulted →
    (t.fault = .stackUnderflow ∧ t.faultVal = s.depth ∧
      ∃ k, (i.opcode, k) ∈ stackNeed ∧ s.depth < k) ∨
    (t.fault = .divideByZero ∧ i.opcode ∈ [Opcode.div, .mod] ∧
      ∃ rest, s.stack = 0 :: t.faultVal :: rest) ∨
    (t.fault = .jumpOutOfRange ∧ s.slen < t.faultVal ∧
      (i = .jmp t.faultVal ∨
       ∃ mk m n rel cmp top, (mk, m, n, rel) ∈ conditionalJumps ∧ i = mk cmp t.faultVal ∧
         s.top = some top ∧ rel top cmp)) ∨
    (t.fault = .unallocatedRead ∧ s.mem.mlen ≤ t.faultVal ∧
      (i = .load t.faultVal ∨ (i = .sload ∧ s.top = some t.faultVal))) ∨
    (t.fault = .stackOverflow ∧ isFull s ∧ (i = .push t.faultVal ∨ i = .load t.faultVal)) ∨
    (t.fault = .memoryOverflow ∧
      ((s.params.memCap ≤ t.faultVal ∧
        (i = .store t.faultVal ∨ (i = .sstore ∧ s.top = some t.faultVal))) ∨
       ∃ size, i = .inLine size t.faultVal ∧ s.params.memCap ≤ t.faultVal + size))

/-- 60_exceptions.md section 1: the order of checks where two faults apply to one instruction. -/
def Obligations.FaultOrder : Prop :=
  ∀ s : State,
    (s.stack = [0] →
      exec .div s = .next (s.raise .stackUnderflow 1) ∧
      exec .mod s = .next (s.raise .stackUnderflow 1)) ∧
    (∀ addr, s.mem.mlen ≤ addr → isFull s →
      exec (.load addr) s = .next (s.raise .unallocatedRead addr)) ∧
    (∀ addr, s.stack = [] → s.params.memCap ≤ addr →
      exec (.store addr) s = .next (s.raise .stackUnderflow 0)) ∧
    (∀ addr, s.stack = [addr] → s.params.memCap ≤ addr →
      exec .sstore s = .next (s.raise .stackUnderflow 1)) ∧
    (∀ cmp addr, s.stack = [] → s.slen < addr →
      exec (.jle cmp addr) s = .next (s.raise .stackUnderflow 0)) ∧
    (∀ w cmp, s.run = .running → s.stack = [] → s.params.opcodeOf w = some .jle →
      s.stream.drop s.ip = [w, cmp] →
      ∃ t, step s = .next t ∧ t.fault = .truncatedInstruction)

/-! ### The cycle -/

/-- A step runs the decoded instruction (30_encoding.md section 4), on the state in which the trace event
of the cycle is out. That the flag `waiting` is cleared here, and that a cycle which goes on waiting
inside IN emits no second trace event, is the model's reading (notes/assumptions/6.md). -/
def Obligations.StepRunsTheDecodedInstruction : Prop :=
  ∀ (s : State) (i : Instr), s.run = .running →
    decodeAt s.params s.stream s.ip = some (.instr i) →
    step s = exec i { s with output := s.output ++ traceEvents s, waiting := false }

/-- 30_encoding.md section 4, step 1: it "changes nothing but `run` and `stop`". -/
def Obligations.StepEndsTheRunAtTheEndOfTheStream : Prop :=
  ∀ s : State, s.run = .running → s.slen ≤ s.ip →
    ∃ t, step s = .next t ∧
      t = { s with run := .idle, stop := .endOfStream, waiting := t.waiting } ∧
      t.executeResponse = some (.stopped .endOfStream)

/-- R242, R243 -/
def Obligations.UndecodableWordsFault : Prop :=
  ∀ (s : State) (w : Nat) (rest : List Nat), s.run = .running →
    s.stream.drop s.ip = w :: rest →
    ((∀ m, s.params.opcodeNumber m ≠ w) →
      ∃ t, step s = .next t ∧
        t = { s with
          fault := .invalidInstruction, faultIp := s.ip, faultVal := w, run := .faulted,
          stop := .fault, output := s.output ++ traceEvents s, waiting := t.waiting }) ∧
    (∀ m, s.params.opcodeOf w = some m → s.slen < s.ip + 1 + m.arity →
      ∃ t, step s = .next t ∧
        t = { s with
          fault := .truncatedInstruction, faultIp := s.ip, faultVal := w, run := .faulted,
          stop := .fault, output := s.output ++ traceEvents s, waiting := t.waiting })

/-- 10_state.md section 3 (run state): IDLE and FAULTED engines execute nothing. That the model's step
is then the identity is the model's reading (notes/assumptions/8.md). -/
def Obligations.StoppedEngineExecutesNothing : Prop :=
  ∀ s : State, s.run ≠ .running → step s = .next s

/-- 44_host_interface.md section 4: a traced cycle emits exactly one `Trace` event, with the raw opcode
word and the stack top from before the effect, ahead of the instruction's own events; an untraced
cycle and the end-of-stream test emit none. -/
def Obligations.OneTraceEventPerCycle : Prop :=
  ∀ s t : State, s.run = .running → s.waiting = false → step s = .next t →
    (s.slen ≤ s.ip → t.output = s.output) ∧
    (∀ op rest, s.stream.drop s.ip = op :: rest →
      ∃ evs, t.output = s.output ++ (if s.trace then [.trace op s.stack.head?] else []) ++ evs ∧
        ∀ e ∈ evs, ∀ o x, e ≠ .trace o x)

/-- 44_host_interface.md section 4: "a program computes the same with it on or off"; nor does what was
output before matter. -/
def Obligations.TraceChangesNothingButOutput : Prop :=
  ∀ (s t : State) (b : Bool) (o : List Event), step s = .next t →
    ∃ u, step { s with trace := b, output := o } = .next u ∧
      u = { t with trace := b, output := u.output }

/-- 44_host_interface.md section 3: a run ends in exactly one of three ways. -/
def Obligations.RunsEndInThreeWays : Prop :=
  ∀ s t : State, s.run = .running → step s = .next t → t.run ≠ .running →
    (t.run = .idle ∧ t.stop = .endOfStream ∧ s.slen ≤ s.ip ∧ t.ip = s.ip) ∨
    (t.run = .idle ∧ t.stop = .halted ∧ t.ip = s.ip + 1 ∧
      decodeAt s.params s.stream s.ip = some (.instr .halt)) ∨
    (t.run = .faulted ∧ t.stop = .fault ∧ t.fault ≠ .none ∧ t.faultIp = s.ip ∧ t.ip = s.ip)

/-- 00_scope.md section 5 names four outcomes of a step: a next state, a fault, a stop, a wait. That each
of them is a next state is the model's choice (a fault: notes/assumptions/1.md; a wait:
notes/assumptions/6.md), and that an engine which is not RUNNING has one, itself, is its reading
(notes/assumptions/8.md). -/
def Obligations.EveryInstructionHasANextState : Prop :=
  (∀ (i : Instr) (s : State), ∃ t, exec i s = .next t) ∧ ∀ s : State, ∃ t, step s = .next t

/-! ### Encoding -/

/-- 30_encoding.md section 3: decoding an encoded instruction, wherever it stands in a stream, gives it
back, under every legal opcode numbering and with every operand value. -/
def Obligations.DecodeOfEncode : Prop :=
  ∀ (p : Params) (before after : List Nat) (i : Instr), p.Valid →
    decodeAt p (before ++ encode p i ++ after) before.length = some (.instr i)

/-- 30_encoding.md section 3: what decodes to an instruction is the encoding of that instruction. -/
def Obligations.EncodeOfDecode : Prop :=
  ∀ (p : Params) (w : Nat) (rest : List Nat) (i : Instr), decode p w rest = .instr i →
    encode p i ++ rest.drop i.opcode.arity = w :: rest ∧ (encode p i).length = i.length

/-- R89 and 30_encoding.md section 3: which words are illegal and which instructions are truncated. -/
def Obligations.DecodeRejectsExactlyIllegalWords : Prop :=
  ∀ (p : Params) (w : Nat) (rest : List Nat), p.Valid →
    (decode p w rest = .invalid w ↔ w ∉ p.opc) ∧
    (∀ m, p.opcodeNumber m = w → (decode p w rest = .truncated m w ↔ rest.length < m.arity)) ∧
    (decode Params.default w rest = .invalid w ↔ 23 ≤ w)

/-- 30_encoding.md section 3: a stream made by `encode(program)`, decoded from index 0 by stepping by the
returned lengths, gives the program, and nothing after it. -/
def Obligations.ProgramRoundTrip : Prop :=
  ∀ (p : Params) (is : List Instr) (n : Nat), p.Valid → is.length ≤ n →
    decodeProgram p (encodeProgram p is) n 0 = is

/-- 30_encoding.md sections 1 and 3: a few words written out from the tables. -/
def Obligations.WrittenOutWordsDecode : Prop :=
  decodeAt Params.default [0x00000000, 0x0000002A] 0 = some (.instr (.push 42)) ∧
  decodeAt Params.default [0x0000000B, 0x00000064, 0x00000002] 0 = some (.instr (.jle 100 2)) ∧
  decodeAt Params.default [0x00000010, 0x0000000A, 0x00000000] 0 = some (.instr (.inLine 10 0)) ∧
  decodeAt Params.default [0x00000012, 0x00000003] 0 = some (.instr (.store 3)) ∧
  decodeAt Params.default [0x00000003] 0 = some (.instr .sub) ∧
  decodeAt Params.default [0x00000100] 0 = some (.invalid 0x100) ∧
  decodeAt Params.default [0x16, 0x0B, 0x64] 1 = some (.truncated .jle 0xB)

/-! ### Invariants -/

/-- Every step keeps the invariant of Safety.lean. -/
def Obligations.StepKeepsTheInvariant : Prop :=
  ∀ s t : State, s.Inv → step s = .next t → t.Inv

/-- The invariant holds at reset. -/
def Obligations.ResetMeetsTheInvariant : Prop := State.reset.Inv

/-- Every host command, every event of the input source and power-on keep the invariant. -/
def Obligations.OutsideEventsKeepTheInvariant : Prop :=
  ∀ s : State, s.Inv →
    (∀ c : Command, (hostCommand c s).2.Inv) ∧ (∀ line, (s.deliverLine line).Inv) ∧
    s.endInput.Inv ∧ s.powerOn.Inv

/-- No step writes the stream, the Error State, the trace toggle or the parameters (20_memory.md
section 4, 10_state.md sections 3 and 4). -/
def Obligations.StepsLeaveStreamErrTraceParams : Prop :=
  ∀ s t : State, step s = .next t →
    t.stream = s.stream ∧ t.err = s.err ∧ t.trace = s.trace ∧ t.params = s.params

/-- R54 -/
def Obligations.MemoryNeverShrinks : Prop :=
  (∀ s t : State, step s = .next t →
    s.mem.mlen ≤ t.mem.mlen ∧
    (t.mem.mlen ≠ s.mem.mlen →
      ∃ i, decodeAt s.params s.stream s.ip = some (.instr i) ∧
        i.opcode ∈ [Opcode.store, .sstore, .inLine])) ∧
  ∀ (c : Command) (s : State),
    (hostCommand c s).2.mem = s.mem ∨
    ((c = .clear ∨ c = .reset) ∧ (hostCommand c s).2.mem.mlen = 0)

/-- 10_state.md section 4: the output is only ever appended to, and neither the host nor a reset retracts
an event. That the events already emitted are a field is the model's form (notes/assumptions/7.md). -/
def Obligations.OutputIsOnlyAppended : Prop :=
  (∀ s t : State, step s = .next t → ∃ evs, t.output = s.output ++ evs) ∧
  (∀ (c : Command) (s : State), (hostCommand c s).2.output = s.output) ∧
  ∀ s : State, s.powerOn.output = s.output

/-- 10_state.md section 4, 42_io.md section 3: a step reads at most one line, and only an IN reads one. -/
def Obligations.OnlyInReadsALine : Prop :=
  ∀ s t : State, step s = .next t →
    t.input = s.input ∨
    (t.input.ended = s.input.ended ∧ (∃ line, s.input.lines = line :: t.input.lines) ∧
      ∃ size addr, decodeAt s.params s.stream s.ip = some (.instr (.inLine size addr)) ∧
        t.ip = s.ip + 3)

/-- 10_state.md section 1: `ip` stays (a fault, a wait), advances past the instruction, or is set by a
jump to its target inside the stream. -/
def Obligations.IpAdvancesExceptByJumps : Prop :=
  ∀ (i : Instr) (s t : State), exec i s = .next t →
    t.ip = s.ip ∨ t.ip = s.ip + i.length ∨
    (i.opcode ∈ [Opcode.jge, .jgt, .jle, .jlt, .jeq, .jmp] ∧
      i.operands.getLast? = some t.ip ∧ t.ip ≤ s.slen)

/-! ### Reset and host commands -/

/-- R271: the spec's state at reset, and what power-on makes of any state. -/
def Obligations.PowerOnState : Prop :=
  (State.reset.stream = [] ∧ State.reset.stack = [] ∧ State.reset.mem = ⟨[], 0⟩ ∧
    State.reset.ip = 0 ∧ State.reset.err = .noError ∧ State.reset.trace = false ∧
    State.reset.run = .idle ∧ State.reset.stop = .none ∧ State.reset.fault = .none ∧
    State.reset.faultIp = 0 ∧ State.reset.faultVal = 0) ∧
  ∀ s t : State, s.powerOn = t →
    t.stream = [] ∧ t.stack = [] ∧ t.mem = ⟨[], 0⟩ ∧ t.ip = 0 ∧ t.err = .noError ∧
    t.trace = false ∧ t.run = .idle ∧ t.stop = .none ∧ t.fault = .none ∧ t.faultIp = 0 ∧
    t.faultVal = 0

/-- R195, R196 -/
def Obligations.ClearAndReset : Prop :=
  ∀ s : State, s.run ≠ .running →
    (∃ t, hostCommand .clear s = (.ok, t) ∧
      t = { s with
        stream := [], stack := [], mem := ⟨[], 0⟩, ip := 0, err := .noError, run := .idle,
        stop := .none, fault := .none, faultIp := 0, faultVal := 0, waiting := t.waiting }) ∧
    (∃ t, hostCommand .reset s = (.ok, t) ∧
      t = { s with
        stack := [], mem := ⟨[], 0⟩, ip := 0, err := .noError, run := .idle, stop := .none,
        fault := .none, faultIp := 0, faultVal := 0, waiting := t.waiting })

/-- R191 with the acceptance column of R192's table. -/
def Obligations.CommandsAcceptedOrRefused : Prop :=
  ∀ (c : Command) (s : State),
    (s.run = .running → hostCommand c s = (.refused, s)) ∧
    (s.run = .faulted →
      ((∃ i, c = .emit i) ∨ c = .execute ∨ (∃ k, c = .save k) ∨ ∃ src, c = .load src) →
      hostCommand c s = (.refused, s)) ∧
    (s.run = .faulted →
      (c = .clear ∨ c = .reset ∨ c = .peek ∨ c = .getIp ∨ (∃ b, c = .setTrace b) ∨
        c = .getError ∨ c = .getStatus) →
      (hostCommand c s).1 ≠ .refused) ∧
    (s.run = .idle → c.wellFormed s.params = true → (hostCommand c s).1 ≠ .refused)

/-- R197, R198, R199, R201, R202 -/
def Obligations.ReadOutsAndSetTrace : Prop :=
  ∀ s : State, s.run ≠ .running →
    (∀ t rest, s.stack = t :: rest → hostCommand .peek s = (.top (some t), s)) ∧
    (s.stack = [] → hostCommand .peek s = (.top none, s)) ∧
    hostCommand .getIp s = (.ip s.ip, s) ∧
    (∀ b, hostCommand (.setTrace b) s = (.ok, { s with trace := b })) ∧
    hostCommand .getError s = (.error s.err, s) ∧
    hostCommand .getStatus s = (.status s.run s.stop s.fault s.faultIp s.faultVal, s)

/-- R190 -/
def Obligations.EmitAppendsOrIsFull : Prop :=
  ∀ (i : Instr) (s : State), s.run = .idle → i.wellFormed s.params = true →
    (s.slen + (1 + i.opcode.arity) ≤ s.params.streamCap →
      hostCommand (.emit i) s =
        (.ok, { s with
          stream := s.stream ++ (s.params.opcodeNumber i.opcode :: i.operands) })) ∧
    (s.params.streamCap < s.slen + (1 + i.opcode.arity) →
      hostCommand (.emit i) s = (.full, s))

/-- 44_host_interface.md section 3: EXECUTE resets nothing, and with `ip` at the end of the stream it ends
at once and changes nothing else. -/
def Obligations.ExecuteStartsAndEnds : Prop :=
  ∀ s : State, s.run = .idle →
    (∃ t, hostCommand .execute s = (.started, t) ∧
      t = { s with run := .running, stop := .none, waiting := t.waiting }) ∧
    (s.ip = s.slen →
      ∃ t, s.executeEndsIn t ∧ t = { s with stop := .endOfStream, waiting := t.waiting })

/-! ### Packing and the persisted format -/

/-- R150, and its inverse of 42_io.md section 1: unpacking the packed words gives the characters back,
followed by the zero bytes of the last word's padding. -/
def Obligations.PackingRule : Prop :=
  ∀ (W : Nat) (cs : List Byte), W % 8 = 0 → 8 ≤ W →
    (pack W cs).length = (cs.length + (W / 8 - 1)) / (W / 8) ∧
    (∀ j < (pack W cs).length,
      (pack W cs).getD j 0 =
        ∑ k ∈ Finset.range (W / 8),
          (cs.getD (j * (W / 8) + k) 0).toNat * 2 ^ (W - 8 - 8 * k)) ∧
    (pack W cs).flatMap (unpack W) =
      cs ++ List.replicate ((pack W cs).length * (W / 8) - cs.length) 0

/-- R203, R204, R207 -/
def Obligations.SaveWritesTheFormat : Prop :=
  ∀ s : State, s.run = .idle → s.params.Valid →
    hostCommand (.save .openFailed) s = (.fail, { s with err := .fileOpen }) ∧
    ∃ bs, hostCommand (.save .ok) s = (.bytes bs, s) ∧
      bs.length = 18 + s.params.W / 8 * s.slen ∧
      bs[0]? = some s.params.bcVersion ∧ (bs[1]?).map BitVec.toNat = some (s.params.W / 8) ∧
      (∀ k, 2 ≤ k → k < 18 → bs[k]? = some 0) ∧
      ∀ i < s.slen, ∀ k < s.params.W / 8,
        bs[18 + s.params.W / 8 * i + k]? =
          some (BitVec.ofNat 8 (s.stream.getD i 0 / 2 ^ (s.params.W - 8 - 8 * k)))

/-- R205, R206, R208 -/
def Obligations.LoadChecksThenAppends : Prop :=
  ∀ s : State, s.run = .idle →
    hostCommand (.load .openFailed) s = (.fail, { s with err := .fileOpen }) ∧
    ∀ bs : List Byte,
      (bs[0]? ≠ some s.params.bcVersion →
        hostCommand (.load (.bytes bs)) s = (.fail, { s with err := .versionMismatch })) ∧
      (bs[0]? = some s.params.bcVersion → (bs[1]?).map BitVec.toNat ≠ some (s.params.W / 8) →
        hostCommand (.load (.bytes bs)) s = (.fail, { s with err := .wordSizeMismatch })) ∧
      (bs[0]? = some s.params.bcVersion → (bs[1]?).map BitVec.toNat = some (s.params.W / 8) →
        ∃ ws : List Nat, ws.length = (bs.length - 18) / (s.params.W / 8) ∧
          (∀ j < ws.length,
            ws.getD j 0 =
              ∑ k ∈ Finset.range (s.params.W / 8),
                (bs.getD (18 + j * (s.params.W / 8) + k) 0).toNat *
                  2 ^ (s.params.W - 8 - 8 * k)) ∧
          (s.slen + ws.length ≤ s.params.streamCap →
            hostCommand (.load (.bytes bs)) s = (.ok, { s with stream := s.stream ++ ws })) ∧
          (s.params.streamCap < s.slen + ws.length →
            hostCommand (.load (.bytes bs)) s = (.full, s)))

/-- 44_host_interface.md section 5: what SAVE writes, LOAD into a cleared engine of the same width and
version reproduces word for word; another width is a WORD_SIZE_MISMATCH. -/
def Obligations.SaveThenLoadReproducesTheStream : Prop :=
  ∀ (s t : State) (bs : List Byte), s.Inv → s.run = .idle → t.Inv → t.run = .idle →
    t.params.bcVersion = s.params.bcVersion → (hostCommand (.save .ok) s).1 = .bytes bs →
    (t.params.W = s.params.W → t.stream = [] → s.slen ≤ t.params.streamCap →
      hostCommand (.load (.bytes bs)) t = (.ok, { t with stream := s.stream })) ∧
    (t.params.W ≠ s.params.W →
      hostCommand (.load (.bytes bs)) t = (.fail, { t with err := .wordSizeMismatch }))

/-- R210 -/
def Obligations.ErrIsStickyAcrossSuccesses : Prop :=
  ∀ (c : Command) (s : State), (hostCommand c s).2.err ≠ s.err →
    ((c = .clear ∨ c = .reset) ∧ (hostCommand c s).2.err = .noError) ∨
    (((∃ k, c = .save k) ∨ ∃ src, c = .load src) ∧ (hostCommand c s).1 = .fail ∧
      (hostCommand c s).2.err ∈
        [ErrorState.fileOpen, .versionMismatch, .wordSizeMismatch])

/-! ### Text -/

/-- 42_io.md section 4: with the default format the text of a `Dbg` event is base-16 digits in lower case
without leading zeros, at least one, then one line feed, and the digits give the word back. The
digit codes are ASCII (notes/assumptions/15.md). -/
def Obligations.DbgTextIsTheWordInBase16 : Prop :=
  ∀ (p : Params) (w : Nat), p.Valid → w < 2 ^ p.W →
    p.dbgFormat = Params.default.dbgFormat →
    ∃ ds : List Nat, ds ≠ [] ∧ (∀ d ∈ ds, d < 16) ∧
      dbgText p w =
        (ds.map fun d => BitVec.ofNat 8 (if d < 10 then 0x30 + d else 0x61 + (d - 10))) ++
          [0x0A] ∧
      ds.foldl (fun n d => 16 * n + d) 0 = w ∧ (ds.head? = some 0 → ds = [0])

/-- 30_encoding.md section 5: whatever the text, every instruction the assembler emits has operands that
are words, and an error names a line of the text. -/
def Obligations.AssemblerEmitsOnlyWords : Prop :=
  ∀ (p : Params) (src : List Byte), 8 ≤ p.W →
    (∀ i ∈ (assemble p src).emitted, i.wellFormed p = true) ∧
    ∀ line e, (assemble p src).error = some (line, e) →
      1 ≤ line ∧ line ≤ src.countP (· = 0x0A) + 1

/-- 30_encoding.md section 5: the assembler reads back the listing of every program of well-formed
instructions, one instruction a line. The codes of digits are ASCII (notes/assumptions/15.md). -/
def Obligations.AssemblerReadsBackListings : Prop :=
  ∀ (p : Params) (is : List Instr), (∀ i ∈ is, i.wellFormed p = true) →
    assemble p (is.flatMap listingLine) = { emitted := is, error := none }

/-- 30_encoding.md section 5: the tokens of a text, in their textual form, and the spaces skipped before
them are the text. The textual form is the model's reading (notes/assumptions/23.md), the codes are
ASCII (notes/assumptions/15.md). -/
def Obligations.TokensCoverTheText : Prop :=
  ∀ (src rest : List Byte) (tok : Token), nextToken src = (tok, rest) →
    (∃ n, src = List.replicate n 0x20 ++ tok.text ++ rest) ∧ tok.text.head? ≠ some 0x20 ∧
    (tok = .endOfInput ↔ tok.text = []) ∧ (tok = .endOfInput → rest = [])
end

