-- ==== Sys2Proof/Laws/Memory.lean ====
section
/-! SUPPORT. Laws of data memory: what a read after a write gives, and that every memory operation keeps the
canonical form (20_memory.md R52, R53, R54). -/

namespace Sys2Proof.Machine

/-! ### Cells -/

theorem readCell_eq_zero_of_lt {a : Nat} {l : List (Nat × Nat)} (h : ∀ c ∈ l, a < c.1) :
    readCell a l = 0 := by
  induction l with
  | nil => rfl
  | cons c t ih =>
    have hc := h c (by simp)
    simp only [readCell, if_neg (show a ≠ c.1 by omega)]
    exact ih fun d hd => h d (by simp [hd])

/-- A cell that is not listed holds 0 (R52, R53). -/
theorem readCell_eq_zero_of_not_listed {a : Nat} {l : List (Nat × Nat)} (h : ∀ w, (a, w) ∉ l) :
    readCell a l = 0 := by
  induction l with
  | nil => rfl
  | cons c t ih =>
    have hne : a ≠ c.1 := fun he => h c.2 (by simp [he])
    simp only [readCell, if_neg hne]
    exact ih fun w hw => h w (List.mem_cons_of_mem _ hw)

theorem sorted_cons {d : Nat × Nat} {t : List (Nat × Nat)} :
    ((d :: t).map Prod.fst).Pairwise (· < ·) ↔
      (∀ c ∈ t, d.1 < c.1) ∧ (t.map Prod.fst).Pairwise (· < ·) := by
  simp [List.pairwise_cons]

theorem mem_writeCell {a : Nat} {v : Nat} {l : List (Nat × Nat)} {c : Nat × Nat}
    (h : c ∈ writeCell a v l) : (c = (a, v) ∧ v ≠ 0) ∨ c ∈ l := by
  induction l with
  | nil =>
    simp only [writeCell] at h
    split at h <;> simp_all
  | cons d t ih =>
    simp only [writeCell] at h
    split at h
    · split at h
      · exact .inr h
      · rcases List.mem_cons.1 h with rfl | h
        · exact .inl ⟨rfl, by assumption⟩
        · exact .inr h
    · split at h
      · split at h
        · exact .inr (List.mem_cons_of_mem _ h)
        · rcases List.mem_cons.1 h with rfl | h
          · exact .inl ⟨rfl, by assumption⟩
          · exact .inr (List.mem_cons_of_mem _ h)
      · rcases List.mem_cons.1 h with rfl | h
        · exact .inr (by simp)
        · exact (ih h).imp id (List.mem_cons_of_mem _)

theorem writeCell_sorted {a : Nat} {v : Nat} {l : List (Nat × Nat)}
    (h : (l.map Prod.fst).Pairwise (· < ·)) : ((writeCell a v l).map Prod.fst).Pairwise (· < ·) := by
  induction l with
  | nil =>
    simp only [writeCell]
    split <;> simp
  | cons d t ih =>
    obtain ⟨hd, ht⟩ := sorted_cons.1 h
    simp only [writeCell]
    split
    · rename_i hlt
      split
      · exact h
      · simp only [List.map_cons, List.pairwise_cons]
        refine ⟨?_, by simpa using h⟩
        intro x hx
        simp only [List.mem_cons, List.mem_map] at hx
        rcases hx with rfl | ⟨c, hc, rfl⟩
        · exact hlt
        · exact hlt.trans (hd c hc)
    · split
      · rename_i heq
        split
        · exact ht
        · simp only [List.map_cons, List.pairwise_cons]
          refine ⟨?_, ht⟩
          intro x hx
          obtain ⟨c, hc, rfl⟩ := List.mem_map.1 hx
          exact heq ▸ hd c hc
      · simp only [List.map_cons, List.pairwise_cons]
        refine ⟨?_, ih ht⟩
        intro x hx
        obtain ⟨c, hc, rfl⟩ := List.mem_map.1 hx
        rcases mem_writeCell hc with ⟨rfl, -⟩ | hc
        · show d.1 < a
          omega
        · exact hd c hc

/-- A read of the written cell gives the value written. -/
theorem readCell_writeCell_same {a : Nat} {v : Nat} {l : List (Nat × Nat)}
    (h : (l.map Prod.fst).Pairwise (· < ·)) : readCell a (writeCell a v l) = v := by
  induction l with
  | nil =>
    simp only [writeCell]
    split <;> simp_all [readCell]
  | cons d t ih =>
    obtain ⟨hd, ht⟩ := sorted_cons.1 h
    simp only [writeCell]
    split
    · rename_i hlt
      split
      · rename_i hv
        rw [hv]
        apply readCell_eq_zero_of_lt
        intro c hc
        rcases List.mem_cons.1 hc with rfl | hc
        · exact hlt
        · exact hlt.trans (hd c hc)
      · simp [readCell]
    · split
      · rename_i heq
        split
        · rename_i hv
          rw [hv]
          exact readCell_eq_zero_of_lt fun c hc => heq ▸ hd c hc
        · simp [readCell]
      · rename_i hne
        simp only [readCell, if_neg hne]
        exact ih ht

/-- A write leaves every other cell alone. -/
theorem readCell_writeCell_ne {a x : Nat} {v : Nat} {l : List (Nat × Nat)} (h : x ≠ a) :
    readCell x (writeCell a v l) = readCell x l := by
  induction l with
  | nil =>
    simp only [writeCell]
    split <;> simp [readCell, h]
  | cons d t ih =>
    simp only [writeCell]
    split
    · split
      · rfl
      · simp [readCell, h]
    · split
      · rename_i heq
        split
        · simp [readCell, heq ▸ h]
        · simp [readCell, h, heq ▸ h]
      · simp only [readCell, ih]

/-! ### Memory -/

@[simp] theorem Memory.write_mlen (m : Memory) (a : Nat) (v : Nat) :
    (m.write a v).mlen = max m.mlen (a + 1) := rfl

@[simp] theorem Memory.write_cells (m : Memory) (a : Nat) (v : Nat) :
    (m.write a v).cells = writeCell a v m.cells := rfl

theorem Memory.wf_empty : Memory.wf ⟨[], 0⟩ := by simp [Memory.wf]

theorem State.reset_mem_wf : State.reset.mem.wf := Memory.wf_empty

theorem Memory.write_wf {m : Memory} (h : m.wf) (a : Nat) (v : Nat) : (m.write a v).wf := by
  refine ⟨writeCell_sorted h.1, ?_⟩
  intro c hc
  rcases mem_writeCell hc with ⟨rfl, hv⟩ | hc
  · exact ⟨hv, by simp⟩
  · exact ⟨(h.2 c hc).1, lt_of_lt_of_le (h.2 c hc).2 (le_max_left _ _)⟩

theorem Memory.writeSpan_wf {m : Memory} (h : m.wf) (a : Nat) (ws : List Nat) :
    (m.writeSpan a ws).wf := by
  induction ws generalizing m a with
  | nil => exact h
  | cons w ws ih => exact ih (Memory.write_wf h a w) (a + 1)

theorem Memory.storeLine_wf {m : Memory} (h : m.wf) (W : Nat) (size addr : Nat)
    (line : List Byte) : (m.storeLine W size addr line).wf :=
  Memory.write_wf (Memory.writeSpan_wf h _ _) _ _

/-- Length of memory after a span is written (R53). -/
theorem Memory.writeSpan_mlen (m : Memory) (a : Nat) (ws : List Nat) :
    (m.writeSpan a ws).mlen = if ws = [] then m.mlen else max m.mlen (a + ws.length) := by
  induction ws generalizing m a with
  | nil => rfl
  | cons w ws ih =>
    simp only [Memory.writeSpan, ih, Memory.write_mlen, List.length_cons, reduceCtorEq, if_false]
    split
    · simp_all
    · omega

/-- Contents of a cell after a span is written: the word of the span that lies there, else as before. -/
theorem Memory.readCell_writeSpan {m : Memory} (h : m.wf) (a : Nat) (ws : List Nat) (x : Nat) :
    readCell x (m.writeSpan a ws).cells =
      if a ≤ x ∧ x < a + ws.length then ws.getD (x - a) 0 else readCell x m.cells := by
  induction ws generalizing m a with
  | nil => simp [Memory.writeSpan]
  | cons w ws ih =>
    simp only [Memory.writeSpan, ih (Memory.write_wf h a w), Memory.write_cells, List.length_cons]
    by_cases hx : x = a
    · subst hx
      simp [readCell_writeCell_same h.1]
    · rw [readCell_writeCell_ne hx]
      by_cases hin : a + 1 ≤ x ∧ x < a + 1 + ws.length
      · rw [if_pos hin, if_pos (by omega)]
        obtain ⟨k, rfl⟩ : ∃ k, x = a + 1 + k := ⟨x - (a + 1), by omega⟩
        simp [show a + 1 + k - a = k + 1 by omega]
      · rw [if_neg hin, if_neg (by omega)]

/-- Every cell at or beyond `mlen` of a canonical memory holds 0. -/
theorem Memory.readCell_of_mlen_le {m : Memory} (h : m.wf) {x : Nat} (hx : m.mlen ≤ x) :
    readCell x m.cells = 0 := by
  obtain ⟨cells, mlen⟩ := m
  replace h := h.2
  simp only at h hx ⊢
  induction cells with
  | nil => rfl
  | cons c t ih =>
    have hc := (h c (by simp)).2
    simp only [readCell, if_neg (show x ≠ c.1 by omega)]
    exact ih fun d hd => h d (by simp [hd])

/-- What a listed cell of the result of a write is: the written one, or an old one. -/
theorem Memory.mem_writeSpan {m : Memory} {a : Nat} {ws : List Nat} {c : Nat × Nat}
    (h : c ∈ (m.writeSpan a ws).cells) : c.2 ∈ ws ∨ c ∈ m.cells := by
  induction ws generalizing m a with
  | nil => exact .inr h
  | cons w ws ih =>
    rcases ih h with h | h
    · exact .inl (List.mem_cons_of_mem _ h)
    · rcases mem_writeCell h with ⟨rfl, -⟩ | h
      · exact .inl (by simp)
      · exact .inr h

/-- Reading after one write, at every address: the word written, what stood there, 0 where the write
allocated the cell, nothing beyond (R53). -/
theorem Memory.read_write {m : Memory} (h : m.wf) (a v x : Nat) :
    (m.write a v).read x =
      if x = a then some v
      else if x < m.mlen then m.read x
      else if x < a then some 0
      else none := by
  show (if x < max m.mlen (a + 1) then some (readCell x (writeCell a v m.cells)) else none) = _
  simp only [Memory.read]
  by_cases h1 : x = a
  · subst h1
    simp [readCell_writeCell_same h.1]
  · rw [if_neg h1, readCell_writeCell_ne h1]
    by_cases h3 : x < m.mlen
    · rw [if_pos (by omega), if_pos h3, if_pos h3]
    · rw [if_neg h3, Memory.readCell_of_mlen_le h (by omega)]
      by_cases h4 : x < a
      · rw [if_pos (by omega), if_pos h4]
      · rw [if_neg (by omega), if_neg h4]

/-- Length of memory after IN stored a line (R153). -/
theorem Memory.storeLine_mlen (m : Memory) (W size addr : Nat) (line : List Byte) :
    (m.storeLine W size addr line).mlen = max m.mlen (addr + size + 1) := by
  simp only [Memory.storeLine, Memory.write_mlen, Memory.writeSpan_mlen, List.length_take]
  split <;> omega

/-- Reading after IN stored a line, at every address: the terminator, a word of the line, what stood
there, 0 where the terminator's write allocated the cell, nothing beyond (R153). -/
theorem Memory.read_storeLine {m : Memory} (h : m.wf) (W size addr : Nat) (line : List Byte)
    (x : Nat) :
    (m.storeLine W size addr line).read x =
      if x = addr + size then some 0
      else if addr ≤ x ∧ x < addr + min size (pack W line).length then (pack W line)[x - addr]?
      else if x < m.mlen then m.read x
      else if x < addr + size then some 0
      else none := by
  rw [Memory.storeLine, Memory.read_write (Memory.writeSpan_wf h _ _)]
  by_cases h1 : x = addr + size
  · rw [if_pos h1, if_pos h1]
  rw [if_neg h1, if_neg h1]
  simp only [Memory.read, Memory.writeSpan_mlen, Memory.readCell_writeSpan h, List.length_take]
  by_cases h2 : addr ≤ x ∧ x < addr + min size (pack W line).length
  · have hne : (pack W line).take size ≠ [] := by
      intro he
      have := congrArg List.length he
      simp only [List.length_take, List.length_nil] at this
      omega
    rw [if_neg hne, if_pos (by omega), if_pos (by omega), if_pos h2, if_pos h2,
      List.getD_eq_getElem?_getD, List.getElem?_take_of_lt (by omega),
      List.getElem?_eq_getElem (by omega)]
    rfl
  · rw [if_neg h2, if_neg h2]
    by_cases h3 : x < m.mlen
    · rw [if_pos (by split <;> omega), if_pos (by split <;> omega), if_pos h3, if_pos h3]
    · rw [if_neg h3, Memory.readCell_of_mlen_le h (by omega)]
      by_cases h4 : x < addr + size
      · simp [h4]
      · rw [if_neg h4, if_neg (by split <;> omega)]

end Sys2Proof.Machine
end

