-- ==== Sys2Proof/Laws/State.lean ====
section
/-! SUPPORT. One lemma per field per update of the state: what each named update writes and what it leaves
alone, so that no proof unfolds an update. -/

namespace Sys2Proof.Machine

variable (s : State)

/-! ### `withStack` -/

@[simp] theorem State.withStack_stream (st : List Nat) : (s.withStack st).stream = s.stream := rfl
@[simp] theorem State.withStack_stack (st : List Nat) : (s.withStack st).stack = st := rfl
@[simp] theorem State.withStack_mem (st : List Nat) : (s.withStack st).mem = s.mem := rfl
@[simp] theorem State.withStack_ip (st : List Nat) : (s.withStack st).ip = s.ip := rfl
@[simp] theorem State.withStack_err (st : List Nat) : (s.withStack st).err = s.err := rfl
@[simp] theorem State.withStack_trace (st : List Nat) : (s.withStack st).trace = s.trace := rfl
@[simp] theorem State.withStack_run (st : List Nat) : (s.withStack st).run = s.run := rfl
@[simp] theorem State.withStack_stop (st : List Nat) : (s.withStack st).stop = s.stop := rfl
@[simp] theorem State.withStack_fault (st : List Nat) : (s.withStack st).fault = s.fault := rfl
@[simp] theorem State.withStack_faultIp (st : List Nat) :
    (s.withStack st).faultIp = s.faultIp := rfl
@[simp] theorem State.withStack_faultVal (st : List Nat) :
    (s.withStack st).faultVal = s.faultVal := rfl
@[simp] theorem State.withStack_output (st : List Nat) : (s.withStack st).output = s.output := rfl
@[simp] theorem State.withStack_input (st : List Nat) : (s.withStack st).input = s.input := rfl
@[simp] theorem State.withStack_waiting (st : List Nat) :
    (s.withStack st).waiting = s.waiting := rfl
@[simp] theorem State.withStack_params (st : List Nat) : (s.withStack st).params = s.params := rfl

/-! ### `withMem` -/

@[simp] theorem State.withMem_stream (m : Memory) : (s.withMem m).stream = s.stream := rfl
@[simp] theorem State.withMem_stack (m : Memory) : (s.withMem m).stack = s.stack := rfl
@[simp] theorem State.withMem_mem (m : Memory) : (s.withMem m).mem = m := rfl
@[simp] theorem State.withMem_ip (m : Memory) : (s.withMem m).ip = s.ip := rfl
@[simp] theorem State.withMem_err (m : Memory) : (s.withMem m).err = s.err := rfl
@[simp] theorem State.withMem_trace (m : Memory) : (s.withMem m).trace = s.trace := rfl
@[simp] theorem State.withMem_run (m : Memory) : (s.withMem m).run = s.run := rfl
@[simp] theorem State.withMem_stop (m : Memory) : (s.withMem m).stop = s.stop := rfl
@[simp] theorem State.withMem_fault (m : Memory) : (s.withMem m).fault = s.fault := rfl
@[simp] theorem State.withMem_faultIp (m : Memory) : (s.withMem m).faultIp = s.faultIp := rfl
@[simp] theorem State.withMem_faultVal (m : Memory) : (s.withMem m).faultVal = s.faultVal := rfl
@[simp] theorem State.withMem_output (m : Memory) : (s.withMem m).output = s.output := rfl
@[simp] theorem State.withMem_input (m : Memory) : (s.withMem m).input = s.input := rfl
@[simp] theorem State.withMem_waiting (m : Memory) : (s.withMem m).waiting = s.waiting := rfl
@[simp] theorem State.withMem_params (m : Memory) : (s.withMem m).params = s.params := rfl

/-! ### `advance` -/

@[simp] theorem State.advance_stream (m : Opcode) : (s.advance m).stream = s.stream := rfl
@[simp] theorem State.advance_stack (m : Opcode) : (s.advance m).stack = s.stack := rfl
@[simp] theorem State.advance_mem (m : Opcode) : (s.advance m).mem = s.mem := rfl
@[simp] theorem State.advance_ip (m : Opcode) : (s.advance m).ip = s.ip + 1 + m.arity := rfl
@[simp] theorem State.advance_err (m : Opcode) : (s.advance m).err = s.err := rfl
@[simp] theorem State.advance_trace (m : Opcode) : (s.advance m).trace = s.trace := rfl
@[simp] theorem State.advance_run (m : Opcode) : (s.advance m).run = s.run := rfl
@[simp] theorem State.advance_stop (m : Opcode) : (s.advance m).stop = s.stop := rfl
@[simp] theorem State.advance_fault (m : Opcode) : (s.advance m).fault = s.fault := rfl
@[simp] theorem State.advance_faultIp (m : Opcode) : (s.advance m).faultIp = s.faultIp := rfl
@[simp] theorem State.advance_faultVal (m : Opcode) : (s.advance m).faultVal = s.faultVal := rfl
@[simp] theorem State.advance_output (m : Opcode) : (s.advance m).output = s.output := rfl
@[simp] theorem State.advance_input (m : Opcode) : (s.advance m).input = s.input := rfl
@[simp] theorem State.advance_waiting (m : Opcode) : (s.advance m).waiting = s.waiting := rfl
@[simp] theorem State.advance_params (m : Opcode) : (s.advance m).params = s.params := rfl

/-! ### `jumpTo` -/

@[simp] theorem State.jumpTo_stream (t : Nat) : (s.jumpTo t).stream = s.stream := rfl
@[simp] theorem State.jumpTo_stack (t : Nat) : (s.jumpTo t).stack = s.stack := rfl
@[simp] theorem State.jumpTo_mem (t : Nat) : (s.jumpTo t).mem = s.mem := rfl
@[simp] theorem State.jumpTo_ip (t : Nat) : (s.jumpTo t).ip = t := rfl
@[simp] theorem State.jumpTo_err (t : Nat) : (s.jumpTo t).err = s.err := rfl
@[simp] theorem State.jumpTo_trace (t : Nat) : (s.jumpTo t).trace = s.trace := rfl
@[simp] theorem State.jumpTo_run (t : Nat) : (s.jumpTo t).run = s.run := rfl
@[simp] theorem State.jumpTo_stop (t : Nat) : (s.jumpTo t).stop = s.stop := rfl
@[simp] theorem State.jumpTo_fault (t : Nat) : (s.jumpTo t).fault = s.fault := rfl
@[simp] theorem State.jumpTo_faultIp (t : Nat) : (s.jumpTo t).faultIp = s.faultIp := rfl
@[simp] theorem State.jumpTo_faultVal (t : Nat) : (s.jumpTo t).faultVal = s.faultVal := rfl
@[simp] theorem State.jumpTo_output (t : Nat) : (s.jumpTo t).output = s.output := rfl
@[simp] theorem State.jumpTo_input (t : Nat) : (s.jumpTo t).input = s.input := rfl
@[simp] theorem State.jumpTo_waiting (t : Nat) : (s.jumpTo t).waiting = s.waiting := rfl
@[simp] theorem State.jumpTo_params (t : Nat) : (s.jumpTo t).params = s.params := rfl

/-! ### `emit` -/

@[simp] theorem State.emit_stream (es : List Event) : (s.emit es).stream = s.stream := rfl
@[simp] theorem State.emit_stack (es : List Event) : (s.emit es).stack = s.stack := rfl
@[simp] theorem State.emit_mem (es : List Event) : (s.emit es).mem = s.mem := rfl
@[simp] theorem State.emit_ip (es : List Event) : (s.emit es).ip = s.ip := rfl
@[simp] theorem State.emit_err (es : List Event) : (s.emit es).err = s.err := rfl
@[simp] theorem State.emit_trace (es : List Event) : (s.emit es).trace = s.trace := rfl
@[simp] theorem State.emit_run (es : List Event) : (s.emit es).run = s.run := rfl
@[simp] theorem State.emit_stop (es : List Event) : (s.emit es).stop = s.stop := rfl
@[simp] theorem State.emit_fault (es : List Event) : (s.emit es).fault = s.fault := rfl
@[simp] theorem State.emit_faultIp (es : List Event) : (s.emit es).faultIp = s.faultIp := rfl
@[simp] theorem State.emit_faultVal (es : List Event) : (s.emit es).faultVal = s.faultVal := rfl
@[simp] theorem State.emit_output (es : List Event) : (s.emit es).output = s.output ++ es := rfl
@[simp] theorem State.emit_input (es : List Event) : (s.emit es).input = s.input := rfl
@[simp] theorem State.emit_waiting (es : List Event) : (s.emit es).waiting = s.waiting := rfl
@[simp] theorem State.emit_params (es : List Event) : (s.emit es).params = s.params := rfl

/-! ### `endRun` -/

@[simp] theorem State.endRun_stream (r : StopReason) : (s.endRun r).stream = s.stream := rfl
@[simp] theorem State.endRun_stack (r : StopReason) : (s.endRun r).stack = s.stack := rfl
@[simp] theorem State.endRun_mem (r : StopReason) : (s.endRun r).mem = s.mem := rfl
@[simp] theorem State.endRun_ip (r : StopReason) : (s.endRun r).ip = s.ip := rfl
@[simp] theorem State.endRun_err (r : StopReason) : (s.endRun r).err = s.err := rfl
@[simp] theorem State.endRun_trace (r : StopReason) : (s.endRun r).trace = s.trace := rfl
@[simp] theorem State.endRun_run (r : StopReason) : (s.endRun r).run = .idle := rfl
@[simp] theorem State.endRun_stop (r : StopReason) : (s.endRun r).stop = r := rfl
@[simp] theorem State.endRun_fault (r : StopReason) : (s.endRun r).fault = s.fault := rfl
@[simp] theorem State.endRun_faultIp (r : StopReason) : (s.endRun r).faultIp = s.faultIp := rfl
@[simp] theorem State.endRun_faultVal (r : StopReason) : (s.endRun r).faultVal = s.faultVal := rfl
@[simp] theorem State.endRun_output (r : StopReason) : (s.endRun r).output = s.output := rfl
@[simp] theorem State.endRun_input (r : StopReason) : (s.endRun r).input = s.input := rfl
@[simp] theorem State.endRun_waiting (r : StopReason) : (s.endRun r).waiting = false := rfl
@[simp] theorem State.endRun_params (r : StopReason) : (s.endRun r).params = s.params := rfl

/-! ### `wait` -/

@[simp] theorem State.wait_stream : (s.wait).stream = s.stream := rfl
@[simp] theorem State.wait_stack : (s.wait).stack = s.stack := rfl
@[simp] theorem State.wait_mem : (s.wait).mem = s.mem := rfl
@[simp] theorem State.wait_ip : (s.wait).ip = s.ip := rfl
@[simp] theorem State.wait_err : (s.wait).err = s.err := rfl
@[simp] theorem State.wait_trace : (s.wait).trace = s.trace := rfl
@[simp] theorem State.wait_run : (s.wait).run = s.run := rfl
@[simp] theorem State.wait_stop : (s.wait).stop = s.stop := rfl
@[simp] theorem State.wait_fault : (s.wait).fault = s.fault := rfl
@[simp] theorem State.wait_faultIp : (s.wait).faultIp = s.faultIp := rfl
@[simp] theorem State.wait_faultVal : (s.wait).faultVal = s.faultVal := rfl
@[simp] theorem State.wait_output : (s.wait).output = s.output := rfl
@[simp] theorem State.wait_input : (s.wait).input = s.input := rfl
@[simp] theorem State.wait_waiting : (s.wait).waiting = true := rfl
@[simp] theorem State.wait_params : (s.wait).params = s.params := rfl

/-! ### `endWait` -/

@[simp] theorem State.endWait_stream : (s.endWait).stream = s.stream := rfl
@[simp] theorem State.endWait_stack : (s.endWait).stack = s.stack := rfl
@[simp] theorem State.endWait_mem : (s.endWait).mem = s.mem := rfl
@[simp] theorem State.endWait_ip : (s.endWait).ip = s.ip := rfl
@[simp] theorem State.endWait_err : (s.endWait).err = s.err := rfl
@[simp] theorem State.endWait_trace : (s.endWait).trace = s.trace := rfl
@[simp] theorem State.endWait_run : (s.endWait).run = s.run := rfl
@[simp] theorem State.endWait_stop : (s.endWait).stop = s.stop := rfl
@[simp] theorem State.endWait_fault : (s.endWait).fault = s.fault := rfl
@[simp] theorem State.endWait_faultIp : (s.endWait).faultIp = s.faultIp := rfl
@[simp] theorem State.endWait_faultVal : (s.endWait).faultVal = s.faultVal := rfl
@[simp] theorem State.endWait_output : (s.endWait).output = s.output := rfl
@[simp] theorem State.endWait_input : (s.endWait).input = s.input := rfl
@[simp] theorem State.endWait_waiting : (s.endWait).waiting = false := rfl
@[simp] theorem State.endWait_params : (s.endWait).params = s.params := rfl

/-! ### `raise` -/

@[simp] theorem State.raise_stream (f : FaultCode) (info : Nat) :
    (s.raise f info).stream = s.stream := rfl
@[simp] theorem State.raise_stack (f : FaultCode) (info : Nat) :
    (s.raise f info).stack = s.stack := rfl
@[simp] theorem State.raise_mem (f : FaultCode) (info : Nat) : (s.raise f info).mem = s.mem := rfl
@[simp] theorem State.raise_ip (f : FaultCode) (info : Nat) : (s.raise f info).ip = s.ip := rfl
@[simp] theorem State.raise_err (f : FaultCode) (info : Nat) : (s.raise f info).err = s.err := rfl
@[simp] theorem State.raise_trace (f : FaultCode) (info : Nat) :
    (s.raise f info).trace = s.trace := rfl
@[simp] theorem State.raise_run (f : FaultCode) (info : Nat) :
    (s.raise f info).run = .faulted := rfl
@[simp] theorem State.raise_stop (f : FaultCode) (info : Nat) :
    (s.raise f info).stop = .fault := rfl
@[simp] theorem State.raise_fault (f : FaultCode) (info : Nat) : (s.raise f info).fault = f := rfl
@[simp] theorem State.raise_faultIp (f : FaultCode) (info : Nat) :
    (s.raise f info).faultIp = s.ip := rfl
@[simp] theorem State.raise_faultVal (f : FaultCode) (info : Nat) :
    (s.raise f info).faultVal = info := rfl
@[simp] theorem State.raise_output (f : FaultCode) (info : Nat) :
    (s.raise f info).output = s.output := rfl
@[simp] theorem State.raise_input (f : FaultCode) (info : Nat) :
    (s.raise f info).input = s.input := rfl
@[simp] theorem State.raise_waiting (f : FaultCode) (info : Nat) :
    (s.raise f info).waiting = false := rfl
@[simp] theorem State.raise_params (f : FaultCode) (info : Nat) :
    (s.raise f info).params = s.params := rfl

/-! ### `resetEngine` -/

@[simp] theorem State.resetEngine_stream : (s.resetEngine).stream = s.stream := rfl
@[simp] theorem State.resetEngine_stack : (s.resetEngine).stack = [] := rfl
@[simp] theorem State.resetEngine_mem : (s.resetEngine).mem = ⟨[], 0⟩ := rfl
@[simp] theorem State.resetEngine_ip : (s.resetEngine).ip = 0 := rfl
@[simp] theorem State.resetEngine_err : (s.resetEngine).err = .noError := rfl
@[simp] theorem State.resetEngine_trace : (s.resetEngine).trace = s.trace := rfl
@[simp] theorem State.resetEngine_run : (s.resetEngine).run = .idle := rfl
@[simp] theorem State.resetEngine_stop : (s.resetEngine).stop = .none := rfl
@[simp] theorem State.resetEngine_fault : (s.resetEngine).fault = .none := rfl
@[simp] theorem State.resetEngine_faultIp : (s.resetEngine).faultIp = 0 := rfl
@[simp] theorem State.resetEngine_faultVal : (s.resetEngine).faultVal = 0 := rfl
@[simp] theorem State.resetEngine_output : (s.resetEngine).output = s.output := rfl
@[simp] theorem State.resetEngine_input : (s.resetEngine).input = s.input := rfl
@[simp] theorem State.resetEngine_waiting : (s.resetEngine).waiting = false := rfl
@[simp] theorem State.resetEngine_params : (s.resetEngine).params = s.params := rfl

/-! ### `clearEngine` -/

@[simp] theorem State.clearEngine_stream : (s.clearEngine).stream = [] := rfl
@[simp] theorem State.clearEngine_stack : (s.clearEngine).stack = [] := rfl
@[simp] theorem State.clearEngine_mem : (s.clearEngine).mem = ⟨[], 0⟩ := rfl
@[simp] theorem State.clearEngine_ip : (s.clearEngine).ip = 0 := rfl
@[simp] theorem State.clearEngine_err : (s.clearEngine).err = .noError := rfl
@[simp] theorem State.clearEngine_trace : (s.clearEngine).trace = s.trace := rfl
@[simp] theorem State.clearEngine_run : (s.clearEngine).run = .idle := rfl
@[simp] theorem State.clearEngine_stop : (s.clearEngine).stop = .none := rfl
@[simp] theorem State.clearEngine_fault : (s.clearEngine).fault = .none := rfl
@[simp] theorem State.clearEngine_faultIp : (s.clearEngine).faultIp = 0 := rfl
@[simp] theorem State.clearEngine_faultVal : (s.clearEngine).faultVal = 0 := rfl
@[simp] theorem State.clearEngine_output : (s.clearEngine).output = s.output := rfl
@[simp] theorem State.clearEngine_input : (s.clearEngine).input = s.input := rfl
@[simp] theorem State.clearEngine_waiting : (s.clearEngine).waiting = false := rfl
@[simp] theorem State.clearEngine_params : (s.clearEngine).params = s.params := rfl

/-! ### `powerOn` -/

@[simp] theorem State.powerOn_stream : (s.powerOn).stream = [] := rfl
@[simp] theorem State.powerOn_stack : (s.powerOn).stack = [] := rfl
@[simp] theorem State.powerOn_mem : (s.powerOn).mem = ⟨[], 0⟩ := rfl
@[simp] theorem State.powerOn_ip : (s.powerOn).ip = 0 := rfl
@[simp] theorem State.powerOn_err : (s.powerOn).err = .noError := rfl
@[simp] theorem State.powerOn_trace : (s.powerOn).trace = false := rfl
@[simp] theorem State.powerOn_run : (s.powerOn).run = .idle := rfl
@[simp] theorem State.powerOn_stop : (s.powerOn).stop = .none := rfl
@[simp] theorem State.powerOn_fault : (s.powerOn).fault = .none := rfl
@[simp] theorem State.powerOn_faultIp : (s.powerOn).faultIp = 0 := rfl
@[simp] theorem State.powerOn_faultVal : (s.powerOn).faultVal = 0 := rfl
@[simp] theorem State.powerOn_output : (s.powerOn).output = s.output := rfl
@[simp] theorem State.powerOn_input : (s.powerOn).input = s.input := rfl
@[simp] theorem State.powerOn_waiting : (s.powerOn).waiting = false := rfl
@[simp] theorem State.powerOn_params : (s.powerOn).params = s.params := rfl

/-! ### `startRun` -/

@[simp] theorem State.startRun_stream : (s.startRun).stream = s.stream := rfl
@[simp] theorem State.startRun_stack : (s.startRun).stack = s.stack := rfl
@[simp] theorem State.startRun_mem : (s.startRun).mem = s.mem := rfl
@[simp] theorem State.startRun_ip : (s.startRun).ip = s.ip := rfl
@[simp] theorem State.startRun_err : (s.startRun).err = s.err := rfl
@[simp] theorem State.startRun_trace : (s.startRun).trace = s.trace := rfl
@[simp] theorem State.startRun_run : (s.startRun).run = .running := rfl
@[simp] theorem State.startRun_stop : (s.startRun).stop = .none := rfl
@[simp] theorem State.startRun_fault : (s.startRun).fault = s.fault := rfl
@[simp] theorem State.startRun_faultIp : (s.startRun).faultIp = s.faultIp := rfl
@[simp] theorem State.startRun_faultVal : (s.startRun).faultVal = s.faultVal := rfl
@[simp] theorem State.startRun_output : (s.startRun).output = s.output := rfl
@[simp] theorem State.startRun_input : (s.startRun).input = s.input := rfl
@[simp] theorem State.startRun_waiting : (s.startRun).waiting = false := rfl
@[simp] theorem State.startRun_params : (s.startRun).params = s.params := rfl

/-! ### `deliverLine` -/

@[simp] theorem State.deliverLine_stream (line : List Byte) :
    (s.deliverLine line).stream = s.stream := rfl
@[simp] theorem State.deliverLine_stack (line : List Byte) :
    (s.deliverLine line).stack = s.stack := rfl
@[simp] theorem State.deliverLine_mem (line : List Byte) : (s.deliverLine line).mem = s.mem := rfl
@[simp] theorem State.deliverLine_ip (line : List Byte) : (s.deliverLine line).ip = s.ip := rfl
@[simp] theorem State.deliverLine_err (line : List Byte) : (s.deliverLine line).err = s.err := rfl
@[simp] theorem State.deliverLine_trace (line : List Byte) :
    (s.deliverLine line).trace = s.trace := rfl
@[simp] theorem State.deliverLine_run (line : List Byte) : (s.deliverLine line).run = s.run := rfl
@[simp] theorem State.deliverLine_stop (line : List Byte) :
    (s.deliverLine line).stop = s.stop := rfl
@[simp] theorem State.deliverLine_fault (line : List Byte) :
    (s.deliverLine line).fault = s.fault := rfl
@[simp] theorem State.deliverLine_faultIp (line : List Byte) :
    (s.deliverLine line).faultIp = s.faultIp := rfl
@[simp] theorem State.deliverLine_faultVal (line : List Byte) :
    (s.deliverLine line).faultVal = s.faultVal := rfl
@[simp] theorem State.deliverLine_output (line : List Byte) :
    (s.deliverLine line).output = s.output := rfl
@[simp] theorem State.deliverLine_input (line : List Byte) :
    (s.deliverLine line).input = ⟨s.input.lines ++ [line], s.input.ended⟩ := rfl
@[simp] theorem State.deliverLine_waiting (line : List Byte) :
    (s.deliverLine line).waiting = s.waiting := rfl
@[simp] theorem State.deliverLine_params (line : List Byte) :
    (s.deliverLine line).params = s.params := rfl

/-! ### `endInput` -/

@[simp] theorem State.endInput_stream : (s.endInput).stream = s.stream := rfl
@[simp] theorem State.endInput_stack : (s.endInput).stack = s.stack := rfl
@[simp] theorem State.endInput_mem : (s.endInput).mem = s.mem := rfl
@[simp] theorem State.endInput_ip : (s.endInput).ip = s.ip := rfl
@[simp] theorem State.endInput_err : (s.endInput).err = s.err := rfl
@[simp] theorem State.endInput_trace : (s.endInput).trace = s.trace := rfl
@[simp] theorem State.endInput_run : (s.endInput).run = s.run := rfl
@[simp] theorem State.endInput_stop : (s.endInput).stop = s.stop := rfl
@[simp] theorem State.endInput_fault : (s.endInput).fault = s.fault := rfl
@[simp] theorem State.endInput_faultIp : (s.endInput).faultIp = s.faultIp := rfl
@[simp] theorem State.endInput_faultVal : (s.endInput).faultVal = s.faultVal := rfl
@[simp] theorem State.endInput_output : (s.endInput).output = s.output := rfl
@[simp] theorem State.endInput_input : (s.endInput).input = ⟨s.input.lines, true⟩ := rfl
@[simp] theorem State.endInput_waiting : (s.endInput).waiting = s.waiting := rfl
@[simp] theorem State.endInput_params : (s.endInput).params = s.params := rfl

end Sys2Proof.Machine
end

