-- ==== Sys2Proof/Laws/Ops.lean ====
section
/-! SUPPORT. For each shared operation of the meanings, one lemma that says once everything it can do. -/

namespace Sys2Proof.Machine

variable {s : State}

/-! ### Operands -/

@[simp] theorem State.withTop_nil {f : Nat → List Nat → State} (h : s.stack = []) :
    s.withTop f = s.raise .stackUnderflow 0 := by
  simp [State.withTop, State.depth, h]

theorem State.withTop_cons {f : Nat → List Nat → State} {t : Nat} {rest : List Nat}
    (h : s.stack = t :: rest) : s.withTop f = f t rest := by
  simp [State.withTop, h]

theorem State.withTop_cases (s : State) (f : Nat → List Nat → State) :
    (s.stack = [] ∧ s.withTop f = s.raise .stackUnderflow 0) ∨
      ∃ t rest, s.stack = t :: rest ∧ s.withTop f = f t rest := by
  cases h : s.stack with
  | nil => exact .inl ⟨rfl, State.withTop_nil h⟩
  | cons t rest => exact .inr ⟨t, rest, rfl, State.withTop_cons h⟩

@[simp] theorem State.withTopTwo_short {f : Nat → Nat → List Nat → State}
    (h : s.depth < 2) : s.withTopTwo f = s.raise .stackUnderflow s.depth := by
  unfold State.withTopTwo
  split
  · rename_i hs
    simp [State.depth, hs] at h
  · rfl

theorem State.withTopTwo_cons {f : Nat → Nat → List Nat → State} {b a : Nat}
    {rest : List Nat} (h : s.stack = b :: a :: rest) : s.withTopTwo f = f b a rest := by
  simp [State.withTopTwo, h]

theorem State.withTopTwo_cases (s : State) (f : Nat → Nat → List Nat → State) :
    (s.depth < 2 ∧ s.withTopTwo f = s.raise .stackUnderflow s.depth) ∨
      ∃ b a rest, s.stack = b :: a :: rest ∧ s.withTopTwo f = f b a rest := by
  match h : s.stack with
  | [] => exact .inl ⟨by simp [State.depth, h], State.withTopTwo_short (by simp [State.depth, h])⟩
  | [a] => exact .inl ⟨by simp [State.depth, h], State.withTopTwo_short (by simp [State.depth, h])⟩
  | b :: a :: rest => exact .inr ⟨b, a, rest, rfl, State.withTopTwo_cons h⟩

/-- What a line read does (R154): it takes the oldest delivered line, or answers an empty line after
the end of the input, or has to wait. -/
theorem State.readLine_cases (s : State) :
    (∃ line rest, s.input.lines = line :: rest ∧
      s.readLine = some (line, { s with input := ⟨rest, s.input.ended⟩ })) ∨
    (s.input.lines = [] ∧ s.input.ended = true ∧ s.params.eofPolicy = .empty ∧
      s.readLine = some ([], s)) ∨
    (s.input.lines = [] ∧ ¬(s.input.ended = true ∧ s.params.eofPolicy = .empty) ∧
      s.readLine = none) := by
  unfold State.readLine
  cases h : s.input.lines with
  | cons line rest => exact .inl ⟨line, rest, rfl, rfl⟩
  | nil =>
    cases he : s.input.ended <;> cases hp : s.params.eofPolicy <;> simp

/-! ### Stack and memory -/

theorem State.stackFull_iff (s : State) :
    s.stackFull = true ↔ ∃ cap, s.params.stackCap = some cap ∧ cap ≤ s.depth := by
  unfold State.stackFull
  cases s.params.stackCap <;> simp

theorem State.stackFull_eq_false_iff (s : State) :
    s.stackFull = false ↔ ∀ cap, s.params.stackCap = some cap → s.depth < cap := by
  unfold State.stackFull
  cases s.params.stackCap <;> simp

theorem Memory.read_eq_some {m : Memory} {a : Nat} (h : a < m.mlen) :
    m.read a = some (readCell a m.cells) := if_pos h

theorem Memory.read_eq_none {m : Memory} {a : Nat} (h : m.mlen ≤ a) : m.read a = none :=
  if_neg (by omega)

theorem State.memWrite_eq_some {a : Nat} (v : Nat) (h : a < s.params.memCap) :
    s.memWrite a v = some (s.withMem (s.mem.write a v)) := if_neg (by omega)

theorem State.memWrite_eq_none {a : Nat} (v : Nat) (h : s.params.memCap ≤ a) :
    s.memWrite a v = none := if_pos h

theorem State.storeWord_cases (s : State) (m : Opcode) (addr v : Nat) (rest : List Nat) :
    (s.params.memCap ≤ addr ∧ s.storeWord m addr v rest = s.raise .memoryOverflow addr) ∨
    (addr < s.params.memCap ∧
      s.storeWord m addr v rest =
        ((s.withMem (s.mem.write addr v)).withStack rest).advance m) := by
  rcases Nat.lt_or_ge addr s.params.memCap with h | h
  · exact .inr ⟨h, by simp [State.storeWord, State.memWrite_eq_some v h]⟩
  · exact .inl ⟨h, by simp [State.storeWord, State.memWrite_eq_none v h]⟩

/-! ### Jumps -/

theorem State.takeJump_cases (s : State) (addr : Nat) :
    (s.slen < addr ∧ s.takeJump addr = s.raise .jumpOutOfRange addr) ∨
    (addr ≤ s.slen ∧ s.takeJump addr = s.jumpTo addr) := by
  rcases Nat.lt_or_ge s.slen addr with h | h
  · exact .inl ⟨h, if_pos h⟩
  · exact .inr ⟨h, if_neg (by omega)⟩

theorem State.jumpIf_cases (s : State) (m : Opcode) (rel : Nat → Nat → Bool) (cmp addr : Nat) :
    (s.stack = [] ∧ s.jumpIf m rel cmp addr = s.raise .stackUnderflow 0) ∨
    ∃ t rest, s.stack = t :: rest ∧
      ((rel t cmp = true ∧ s.jumpIf m rel cmp addr = s.takeJump addr) ∨
       (rel t cmp = false ∧ s.jumpIf m rel cmp addr = s.advance m)) := by
  rcases State.withTop_cases s fun t _ => if rel t cmp then s.takeJump addr else s.advance m with
    ⟨h, e⟩ | ⟨t, rest, h, e⟩
  · exact .inl ⟨h, e⟩
  · refine .inr ⟨t, rest, h, ?_⟩
    cases hr : rel t cmp
    · exact .inr ⟨rfl, by rw [State.jumpIf, e]; simp [hr]⟩
    · exact .inl ⟨rfl, by rw [State.jumpIf, e]; simp [hr]⟩

/-! ### Arithmetic on the stack -/

theorem State.binop_cases (s : State) (m : Opcode) (op : Nat → Nat → Nat) :
    (s.depth < 2 ∧ s.binop m op = s.raise .stackUnderflow s.depth) ∨
    ∃ b a rest, s.stack = b :: a :: rest ∧
      s.binop m op = (s.withStack (op a b :: rest)).advance m :=
  State.withTopTwo_cases s _

theorem State.divop_cases (s : State) (m : Opcode) (op : Nat → Nat → Nat) :
    (s.depth < 2 ∧ s.divop m op = s.raise .stackUnderflow s.depth) ∨
    ∃ b a rest, s.stack = b :: a :: rest ∧
      ((b = 0 ∧ s.divop m op = s.raise .divideByZero a) ∨
       (b ≠ 0 ∧ s.divop m op = (s.withStack (op a b :: rest)).advance m)) := by
  rcases State.withTopTwo_cases s fun b a rest =>
      if b = 0 then s.raise .divideByZero a else (s.withStack (op a b :: rest)).advance m with
    ⟨h, e⟩ | ⟨b, a, rest, h, e⟩
  · exact .inl ⟨h, e⟩
  · refine .inr ⟨b, a, rest, h, ?_⟩
    by_cases hb : b = 0
    · exact .inl ⟨hb, by rw [State.divop, e, if_pos hb]⟩
    · exact .inr ⟨hb, by rw [State.divop, e, if_neg hb]⟩

theorem State.unop_cases (s : State) (m : Opcode) (op : Nat → Nat) :
    (s.stack = [] ∧ s.unop m op = s.raise .stackUnderflow 0) ∨
    ∃ a rest, s.stack = a :: rest ∧ s.unop m op = (s.withStack (op a :: rest)).advance m :=
  State.withTop_cases s _

end Sys2Proof.Machine
end

