-- ==== Sys2Proof/Laws/Exec.lean ====
section
/-! SUPPORT. What running one instruction can do, said once (step 6 of the cycle, 30_encoding.md R90): the
shapes of a next state and, for each, what is known of its new parts. Invariants and frames over all
instructions are a case split on `Effect`. -/

namespace Sys2Proof.Machine

/-- The mnemonics that may set `ip` to a target (41_control.md R137). -/
def jumpOpcodes : List Opcode := [.jge, .jgt, .jle, .jlt, .jeq, .jmp]

/-- The next states instruction `i` can lead to from `s`. -/
inductive Effect (i : Instr) (s : State) : State → Prop where
  /-- a fault: nothing but the fault record, `run` and `stop` (R232, R238) -/
  | raised (f : FaultCode) (info : Nat) (hf : f ≠ .none) : Effect i s (s.raise f info)
  /-- IN with no line available (R154) -/
  | waited (size addr : Nat) (hi : i = .inLine size addr) (hc : addr + size < s.params.memCap)
      (hr : s.readLine = none) : Effect i s s.wait
  /-- IN with a line (R153) -/
  | storedLine (size addr : Nat) (line : List Byte) (t : State) (hi : i = .inLine size addr)
      (hc : addr + size < s.params.memCap) (hr : s.readLine = some (line, t)) :
      Effect i s
        ((t.withMem (t.mem.storeLine t.params.W size addr line)).advance .inLine).endWait
  /-- a new stack and the next instruction: no deeper than before unless there was room, and every word
  of it comes from the stack (or is no larger than one there), from arithmetic modulo `2^W`, from the
  instruction or from memory -/
  | stacked (st : List Nat)
      (hd : st.length ≤ s.depth ∨ (st.length = s.depth + 1 ∧ s.stackFull = false))
      (hw : ∀ w ∈ st, (∃ a ∈ s.stack, w ≤ a) ∨ w < 2 ^ s.params.W ∨ w ∈ i.operands ∨
        ∃ a, s.mem.read a = some w)
      (hi : i.opcode ∉ [Opcode.store, .sstore, .inLine, .halt, .jmp, .out, .dbg]) :
      Effect i s ((s.withStack st).advance i.opcode)
  /-- STORE and SSTORE: one word from the stack written below MEM_CAP (R170, R172) -/
  | stored (addr v : Nat) (rest : List Nat) (hi : i.opcode ∈ [Opcode.store, .sstore])
      (ha : addr < s.params.memCap) (hv : v ∈ s.stack) (hr : rest <:+ s.stack) :
      Effect i s (((s.withMem (s.mem.write addr v)).withStack rest).advance i.opcode)
  /-- OUT and DBG: events that are not trace events (R152, R156) -/
  | emitted (es : List Event) (hi : i.opcode ∈ [Opcode.out, .dbg])
      (he : ∀ e ∈ es, ∀ o x, e ≠ .trace o x) : Effect i s ((s.emit es).advance i.opcode)
  /-- a taken jump (R137, R138) -/
  | jumped (addr : Nat) (hi : i.opcode ∈ jumpOpcodes) (ho : i.operands.getLast? = some addr)
      (ha : addr ≤ s.slen) : Effect i s (s.jumpTo addr)
  /-- HALT (R139) -/
  | halted (hi : i = .halt) : Effect i s ((s.advance .halt).endRun .halted)

theorem addWord_lt (W a b : Nat) : addWord W a b < 2 ^ W := Nat.mod_lt _ (by positivity)

theorem mulWord_lt (W a b : Nat) : mulWord W a b < 2 ^ W := Nat.mod_lt _ (by positivity)

theorem subWord_lt (W a b : Nat) : subWord W a b < 2 ^ W := by
  have hpos : (0 : Int) < ((2 ^ W : Nat) : Int) := by positivity
  have h1 := Int.emod_nonneg ((a : Int) - b) hpos.ne'
  have h2 := Int.emod_lt_of_pos ((a : Int) - b) hpos
  unfold subWord
  omega

variable {i : Instr} {s : State}

/-- The words of `s`'s stack below some popped ones satisfy what `Effect.stacked` asks. -/
theorem stackWord_ok {l rest : List Nat} (h : s.stack = l ++ rest) {w : Nat} (hw : w ∈ rest) :
    (∃ a ∈ s.stack, w ≤ a) ∨ w < 2 ^ s.params.W ∨ w ∈ i.operands ∨ ∃ a, s.mem.read a = some w :=
  .inl ⟨w, by simp [h, hw], le_rfl⟩

theorem binop_effect (op : Nat → Nat → Nat) (hop : ∀ a b, op a b < 2 ^ s.params.W)
    (hi : i.opcode ∉ [Opcode.store, .sstore, .inLine, .halt, .jmp, .out, .dbg]) :
    Effect i s (s.binop i.opcode op) := by
  rcases s.binop_cases i.opcode op with ⟨-, e⟩ | ⟨b, a, rest, h, e⟩
  · exact e ▸ .raised _ _ (by simp)
  · refine e ▸ .stacked _ (.inl (by simp [State.depth, h])) ?_ hi
    intro w hw
    rcases List.mem_cons.1 hw with rfl | hw
    · exact .inr (.inl (hop a b))
    · exact stackWord_ok (l := [b, a]) h hw

theorem divop_effect (op : Nat → Nat → Nat) (hop : ∀ a b, op a b ≤ a)
    (hi : i.opcode ∉ [Opcode.store, .sstore, .inLine, .halt, .jmp, .out, .dbg]) :
    Effect i s (s.divop i.opcode op) := by
  rcases s.divop_cases i.opcode op with ⟨-, e⟩ | ⟨b, a, rest, h, ⟨-, e⟩ | ⟨-, e⟩⟩
  · exact e ▸ .raised _ _ (by simp)
  · exact e ▸ .raised _ _ (by simp)
  · refine e ▸ .stacked _ (.inl (by simp [State.depth, h])) ?_ hi
    intro w hw
    rcases List.mem_cons.1 hw with rfl | hw
    · exact .inl ⟨a, by simp [h], hop a b⟩
    · exact stackWord_ok (l := [b, a]) h hw

theorem unop_effect (op : Nat → Nat) (hop : ∀ a, op a < 2 ^ s.params.W)
    (hi : i.opcode ∉ [Opcode.store, .sstore, .inLine, .halt, .jmp, .out, .dbg]) :
    Effect i s (s.unop i.opcode op) := by
  rcases s.unop_cases i.opcode op with ⟨-, e⟩ | ⟨a, rest, h, e⟩
  · exact e ▸ .raised _ _ (by simp)
  · refine e ▸ .stacked _ (.inl (by simp [State.depth, h])) ?_ hi
    intro w hw
    rcases List.mem_cons.1 hw with rfl | hw
    · exact .inr (.inl (hop a))
    · exact stackWord_ok (l := [a]) h hw

theorem takeJump_effect {addr : Nat} (hi : i.opcode ∈ jumpOpcodes)
    (ho : i.operands.getLast? = some addr) : Effect i s (s.takeJump addr) := by
  rcases s.takeJump_cases addr with ⟨-, e⟩ | ⟨ha, e⟩
  · exact e ▸ .raised _ _ (by simp)
  · exact e ▸ .jumped addr hi ho ha

theorem jumpIf_effect (rel : Nat → Nat → Bool) {cmp addr : Nat} (hi : i.opcode ∈ jumpOpcodes)
    (hj : i.opcode ≠ .jmp) (ho : i.operands.getLast? = some addr) :
    Effect i s (s.jumpIf i.opcode rel cmp addr) := by
  rcases s.jumpIf_cases i.opcode rel cmp addr with ⟨-, e⟩ | ⟨t, rest, h, ⟨-, e⟩ | ⟨-, e⟩⟩
  · exact e ▸ .raised _ _ (by simp)
  · exact e ▸ takeJump_effect hi ho
  · refine e ▸ .stacked s.stack (.inl le_rfl) (fun w hw => stackWord_ok (l := []) rfl hw) ?_
    cases i <;> simp_all [jumpOpcodes, Instr.opcode]

theorem storeWord_effect {addr v : Nat} {rest : List Nat} (hi : i.opcode ∈ [Opcode.store, .sstore])
    (hv : v ∈ s.stack) (hr : rest <:+ s.stack) :
    Effect i s (s.storeWord i.opcode addr v rest) := by
  rcases s.storeWord_cases i.opcode addr v rest with ⟨-, e⟩ | ⟨ha, e⟩
  · exact e ▸ .raised _ _ (by simp)
  · exact e ▸ .stored addr v rest hi ha hv hr

/-- Everything one instruction can do. -/
theorem exec_effect {t : State} (h : exec i s = .next t) : Effect i s t := by
  cases i <;> simp only [exec] at h <;> obtain rfl := Host.Outcome.next.inj h
  case push v =>
    split
    · exact .raised _ _ (by simp)
    · rename_i hf
      refine .stacked (i := .push v) (v :: s.stack) (.inr ⟨rfl, by simpa using hf⟩) ?_
        (by simp [Instr.opcode])
      intro w hw
      rcases List.mem_cons.1 hw with rfl | hw
      · exact .inr (.inr (.inl (by simp [Instr.operands])))
      · exact stackWord_ok (l := []) rfl hw
  case pop =>
    rcases s.withTop_cases (fun _ rest => (s.withStack rest).advance .pop) with
      ⟨-, e⟩ | ⟨t, rest, hs, e⟩
    · exact e ▸ .raised _ _ (by simp)
    · exact e ▸ .stacked (i := .pop) rest (.inl (by simp [State.depth, hs]))
        (fun w hw => stackWord_ok (l := [t]) hs hw) (by decide)
  case add => exact binop_effect (i := .add) _ (addWord_lt _) (by decide)
  case sub => exact binop_effect (i := .sub) _ (subWord_lt _) (by decide)
  case mul => exact binop_effect (i := .mul) _ (mulWord_lt _) (by decide)
  case div => exact divop_effect (i := .div) _ (fun a b => Nat.div_le_self a b) (by decide)
  case mod => exact divop_effect (i := .mod) _ (fun a b => Nat.sub_le _ _) (by decide)
  case inc => exact unop_effect (i := .inc) _ (fun a => addWord_lt _ a 1) (by decide)
  case dec => exact unop_effect (i := .dec) _ (fun a => subWord_lt _ a 1) (by decide)
  case jge c a =>
    exact jumpIf_effect (i := .jge c a) _ (by simp [Instr.opcode, jumpOpcodes])
      (by simp [Instr.opcode]) rfl
  case jgt c a =>
    exact jumpIf_effect (i := .jgt c a) _ (by simp [Instr.opcode, jumpOpcodes])
      (by simp [Instr.opcode]) rfl
  case jle c a =>
    exact jumpIf_effect (i := .jle c a) _ (by simp [Instr.opcode, jumpOpcodes])
      (by simp [Instr.opcode]) rfl
  case jlt c a =>
    exact jumpIf_effect (i := .jlt c a) _ (by simp [Instr.opcode, jumpOpcodes])
      (by simp [Instr.opcode]) rfl
  case jeq c a =>
    exact jumpIf_effect (i := .jeq c a) _ (by simp [Instr.opcode, jumpOpcodes])
      (by simp [Instr.opcode]) rfl
  case jmp a => exact takeJump_effect (by simp [Instr.opcode, jumpOpcodes]) rfl
  case out =>
    rcases s.withTop_cases
        (fun t _ => (s.emit ((printedChars s.params.W t).map .char)).advance .out) with
      ⟨-, e⟩ | ⟨t, rest, -, e⟩
    · exact e ▸ .raised _ _ (by simp)
    · exact e ▸ .emitted (i := .out) _ (by decide) (by simp)
  case dbg =>
    rcases s.withTop_cases (fun t _ => (s.emit [.dbg t]).advance .dbg) with
      ⟨-, e⟩ | ⟨t, rest, -, e⟩
    · exact e ▸ .raised _ _ (by simp)
    · exact e ▸ .emitted (i := .dbg) _ (by decide) (by simp)
  case inLine size addr =>
    split
    · exact .raised _ _ (by simp)
    · rename_i hc
      cases hr : s.readLine with
      | none => exact .waited size addr rfl (by omega) hr
      | some p => exact .storedLine size addr p.1 p.2 rfl (by omega) hr
  case store addr =>
    rcases s.withTop_cases (fun a rest => s.storeWord .store addr a rest) with
      ⟨-, e⟩ | ⟨t, rest, hs, e⟩
    · exact e ▸ .raised _ _ (by simp)
    · exact e ▸ storeWord_effect (i := .store addr) (by simp [Instr.opcode]) (by simp [hs])
        (by rw [hs]; exact List.suffix_cons _ _)
  case load addr =>
    cases hr : s.mem.read addr with
    | none => exact .raised _ _ (by simp)
    | some v =>
      dsimp only
      split
      · exact .raised _ _ (by simp)
      · rename_i hf
        refine .stacked (i := .load addr) (v :: s.stack) (.inr ⟨rfl, by simpa using hf⟩) ?_
          (by simp [Instr.opcode])
        intro w hw
        rcases List.mem_cons.1 hw with rfl | hw
        · exact .inr (.inr (.inr ⟨addr, hr⟩))
        · exact stackWord_ok (l := []) rfl hw
  case sstore =>
    rcases s.withTopTwo_cases (fun addr value rest => s.storeWord .sstore addr value rest) with
      ⟨-, e⟩ | ⟨b, a, rest, hs, e⟩
    · exact e ▸ .raised _ _ (by simp)
    · exact e ▸ storeWord_effect (i := .sstore) (by simp [Instr.opcode]) (by simp [hs])
        (by rw [hs]; exact (List.suffix_cons _ _).trans (List.suffix_cons _ _))
  case sload =>
    rcases s.withTop_cases (fun addr rest =>
        match s.mem.read addr with
        | none => s.raise .unallocatedRead addr
        | some v => (s.withStack (v :: rest)).advance .sload) with ⟨-, e⟩ | ⟨addr, rest, hs, e⟩
    · exact e ▸ .raised _ _ (by simp)
    · refine e ▸ ?_
      cases hr : s.mem.read addr with
      | none => exact .raised _ _ (by simp)
      | some v =>
        refine .stacked (i := .sload) (v :: rest) (.inl (by simp [State.depth, hs])) ?_ (by decide)
        intro w hw
        rcases List.mem_cons.1 hw with rfl | hw
        · exact .inr (.inr (.inr ⟨addr, hr⟩))
        · exact stackWord_ok (l := [addr]) hs hw
  case halt => exact .halted rfl

end Sys2Proof.Machine
end

