-- ==== Sys2Proof/Laws/Fetch.lean ====
section
/-! SUPPORT. What decoding, fetching and one step can do, each said once. -/

namespace Sys2Proof

/-! ### Decode -/

theorem Opcode.mem_all (m : Opcode) : m ∈ Opcode.all := by cases m <;> simp [Opcode.all]

/-- In a legal build no two mnemonics share a number, so that each number selects its mnemonic (R84). -/
theorem Params.opcodeOf_opcodeNumber {p : Params} (hp : p.Valid) (m : Opcode) :
    p.opcodeOf (p.opcodeNumber m) = some m := by
  obtain ⟨-, ⟨hl, hn, -⟩, -⟩ := hp
  have hlt : ∀ m : Opcode, m.index < p.opc.length := by
    intro m
    rw [hl]
    cases m <;> simp [Opcode.index]
  have inj : ∀ a b : Opcode, p.opcodeNumber a = p.opcodeNumber b → a = b := by
    intro a b h
    simp only [Params.opcodeNumber, List.getD_eq_getElem?_getD, List.getElem?_eq_getElem (hlt a),
      List.getElem?_eq_getElem (hlt b), Option.getD_some] at h
    have := (List.Nodup.getElem_inj_iff hn).1 h
    revert this
    cases a <;> cases b <;> simp [Opcode.index]
  cases h : p.opcodeOf (p.opcodeNumber m) with
  | none =>
    simp only [Params.opcodeOf, List.find?_eq_none, beq_iff_eq] at h
    exact absurd rfl (h m (Opcode.mem_all m))
  | some m' =>
    have := List.find?_some h
    simp only [beq_iff_eq] at this
    rw [inj _ _ this]

/-- The three answers of the decoder: which words lead to which (R88). -/
theorem decode_cases (p : Params) (w : Nat) (rest : List Nat) :
    (p.opcodeOf w = none ∧ decode p w rest = .invalid w) ∨
    ∃ m, p.opcodeOf w = some m ∧
      ((rest.length < m.arity ∧ decode p w rest = .truncated m w) ∨
       ∃ i : Instr, i.opcode = m ∧ i.operands = rest.take m.arity ∧ m.arity ≤ rest.length ∧
         decode p w rest = .instr i) := by
  cases h : p.opcodeOf w with
  | none => exact .inl ⟨rfl, by simp [decode, h]⟩
  | some m =>
    refine .inr ⟨m, rfl, ?_⟩
    simp only [decode, h]
    rcases rest with _ | ⟨o1, _ | ⟨o2, rest⟩⟩ <;> cases m <;>
      first
      | exact .inl ⟨by simp [Opcode.arity], rfl⟩
      | exact .inr ⟨_, rfl, by simp [Instr.operands, Opcode.arity], by simp [Opcode.arity], rfl⟩

namespace Machine

/-! ### Fetch -/

@[simp] theorem State.traceFetch_eq (s : State) (op : Nat) :
    s.traceFetch op = s.emit (if s.trace && !s.waiting then [.trace op s.top] else []) := by
  unfold State.traceFetch
  split
  · rfl
  · simp [State.emit]

/-- The state an instruction runs on: the trace event is out, a wait is over (R90 steps 2 to 5). -/
def State.fetched (s : State) (op : Nat) : State :=
  { s with
    output := s.output ++ (if s.trace && !s.waiting then [.trace op s.top] else []),
    waiting := false }

/-- Everything steps 1 to 5 of the cycle can lead to (R90, R32). -/
theorem State.fetch_cases (s : State) :
    (s.run ≠ .running ∧ s.fetch = .settled s) ∨
    (s.run = .running ∧ s.stream.drop s.ip = [] ∧ s.fetch = .settled (s.endRun .endOfStream)) ∨
    (s.run = .running ∧ ∃ op rest, s.stream.drop s.ip = op :: rest ∧
      ((decode s.params op rest = .invalid op ∧
          s.fetch = .settled ((s.fetched op).raise .invalidInstruction op)) ∨
       (∃ m, decode s.params op rest = .truncated m op ∧
          s.fetch = .settled ((s.fetched op).raise .truncatedInstruction op)) ∨
       (∃ i, decode s.params op rest = .instr i ∧ s.fetch = .instr i (s.fetched op)))) := by
  cases hr : s.run with
  | idle => exact .inl ⟨by simp, by simp [State.fetch, hr]⟩
  | faulted => exact .inl ⟨by simp, by simp [State.fetch, hr]⟩
  | running =>
    refine .inr ?_
    cases hd : s.stream.drop s.ip with
    | nil => exact .inl ⟨rfl, rfl, by simp [State.fetch, hr, hd]⟩
    | cons op rest =>
      refine .inr ⟨rfl, op, rest, rfl, ?_⟩
      have hf : s.fetch = s.fetchOpcode op rest := by simp [State.fetch, hr, hd]
      have hs : (s.traceFetch op).endWait = s.fetched op := by
        simp only [State.traceFetch_eq]
        rfl
      rw [hf, State.fetchOpcode, hs]
      rcases decode_cases s.params op rest with ⟨-, e⟩ | ⟨m, -, ⟨-, e⟩ | ⟨i, -, -, -, e⟩⟩
      · exact .inl ⟨e, by rw [e]⟩
      · exact .inr (.inl ⟨m, e, by rw [e]⟩)
      · exact .inr (.inr ⟨i, e, by rw [e]⟩)

/-- Everything one step can do: nothing, end the run at the end of the stream, take a decode fault, or
run the decoded instruction (R90). -/
theorem step_cases (s : State) :
    (s.run ≠ .running ∧ step s = .next s) ∨
    (s.run = .running ∧ s.stream.drop s.ip = [] ∧ step s = .next (s.endRun .endOfStream)) ∨
    (s.run = .running ∧ ∃ op rest, s.stream.drop s.ip = op :: rest ∧
      ((decode s.params op rest = .invalid op ∧
          step s = .next ((s.fetched op).raise .invalidInstruction op)) ∨
       (∃ m, decode s.params op rest = .truncated m op ∧
          step s = .next ((s.fetched op).raise .truncatedInstruction op)) ∨
       (∃ i, decode s.params op rest = .instr i ∧ step s = exec i (s.fetched op)))) := by
  rcases State.fetch_cases s with ⟨h, e⟩ | ⟨h, hd, e⟩ | ⟨h, op, rest, hd, ⟨hdec, e⟩ | ⟨m, hdec, e⟩ | ⟨i, hdec, e⟩⟩
  · exact .inl ⟨h, by rw [step, e]⟩
  · exact .inr (.inl ⟨h, hd, by rw [step, e]⟩)
  · exact .inr (.inr ⟨h, op, rest, hd, .inl ⟨hdec, by rw [step, e]⟩⟩)
  · exact .inr (.inr ⟨h, op, rest, hd, .inr (.inl ⟨m, hdec, by rw [step, e]⟩)⟩)
  · exact .inr (.inr ⟨h, op, rest, hd, .inr (.inr ⟨i, hdec, by rw [step, e]⟩)⟩)

end Machine

end Sys2Proof
end

