-- ==== Sys2Proof/Laws/HostInterface.lean ====
section
/-! SUPPORT. What the host commands can do, each operation said once. -/

namespace Sys2Proof.Machine

/-- Appending words: all of them, or `full` and none (R190, R205). -/
theorem State.appendWords_cases (s : State) (ws : List Nat) :
    (s.params.streamCap < s.slen + ws.length ∧ s.appendWords ws = (.full, s)) ∨
    (s.slen + ws.length ≤ s.params.streamCap ∧
      s.appendWords ws = (.ok, { s with stream := s.stream ++ ws })) := by
  rcases Nat.lt_or_ge s.params.streamCap (s.slen + ws.length) with h | h
  · exact .inl ⟨h, if_pos h⟩
  · exact .inr ⟨h, if_neg (by omega)⟩

/-- LOAD: a failure writes only `err`, otherwise the words of the body are appended (R205, R206). -/
theorem State.load_cases (s : State) (src : Source) :
    (∃ e, e ≠ .noError ∧ e ≠ .invalidInstruction ∧ s.load src = (.fail, { s with err := e })) ∨
    ∃ bs, src = .bytes bs ∧ headerError s.params bs = none ∧
      s.load src = s.appendWords (bodyWords s.params.W (bs.drop 18)) := by
  cases src with
  | openFailed => exact .inl ⟨.fileOpen, by simp, by simp, rfl⟩
  | bytes bs =>
    cases h : headerError s.params bs with
    | none => exact .inr ⟨bs, rfl, h, by simp [State.load, h]⟩
    | some e =>
      refine .inl ⟨e, ?_, ?_, by simp [State.load, h]⟩ <;>
      · rintro rfl
        rcases bs with _ | ⟨v, _ | ⟨n, bs⟩⟩ <;> simp [headerError] at h <;> split at h <;> simp_all

/-- A host command either is refused with no effect or has its effect (R191). -/
theorem hostCommand_cases (c : Command) (s : State) :
    ((c.accepted s.run && c.wellFormed s.params) = false ∧ hostCommand c s = (.refused, s)) ∨
    (c.accepted s.run = true ∧ c.wellFormed s.params = true ∧ hostCommand c s = s.perform c) := by
  cases h : c.accepted s.run && c.wellFormed s.params
  · exact .inl ⟨rfl, by simp [hostCommand, h]⟩
  · simp only [Bool.and_eq_true] at h
    exact .inr ⟨h.1, h.2, by simp [hostCommand, h]⟩

end Sys2Proof.Machine
end

