-- ==== Sys2Proof/Laws/Packing.lean ====
section
/-! SUPPORT. Packing and unpacking (42_io.md R150, R151): packed words are words, and the two are inverse to
each other. Widths are written `8 * B`. -/

namespace Sys2Proof.Machine

/-- What the first `n` characters contribute to a word is a multiple of the weight of the next one, and
leaves room for the rest. -/
theorem joinBytes_prefix (B : Nat) (bs : List Byte) (n : Nat) (hn : n ≤ B) :
    ∃ q, q < 256 ^ n ∧
      ((List.range n).map fun k => (bs.getD k 0).toNat * 2 ^ (8 * B - 8 - 8 * k)).sum =
        q * 2 ^ (8 * B - 8 * n) := by
  induction n with
  | zero => exact ⟨0, by simp, by simp⟩
  | succ n ih =>
    obtain ⟨q, hq, e⟩ := ih (by omega)
    refine ⟨q * 256 + (bs.getD n 0).toNat, ?_, ?_⟩
    · have := (bs.getD n 0).isLt
      rw [pow_succ]
      omega
    · rw [List.range_succ, List.map_append, List.sum_append, e,
        show 8 * B - 8 * n = 8 + (8 * B - 8 - 8 * n) by omega, pow_add,
        show 8 * B - 8 * (n + 1) = 8 * B - 8 - 8 * n by omega]
      simp only [List.map_cons, List.map_nil, List.sum_cons, List.sum_nil, add_zero]
      ring

theorem joinBytes_lt (B : Nat) (bs : List Byte) : joinBytes (8 * B) bs < 2 ^ (8 * B) := by
  obtain ⟨q, hq, e⟩ := joinBytes_prefix B bs B le_rfl
  simp only [joinBytes, Nat.mul_div_cancel_left B (by norm_num : 0 < 8), e, Nat.sub_self, pow_zero,
    mul_one]
  rwa [pow_mul]

/-- Every packed word is a word (R150). -/
theorem pack_lt (B : Nat) (cs : List Byte) : ∀ w ∈ pack (8 * B) cs, w < 2 ^ (8 * B) := by
  intro w hw
  simp only [pack, List.mem_map] at hw
  obtain ⟨j, -, rfl⟩ := hw
  exact joinBytes_lt B _

/-- Character `k` of a packed word is character `k` that was packed (R150, R151). -/
theorem byteOf_joinBytes {B k : Nat} (hk : k < B) (bs : List Byte) :
    byteOf (8 * B) (joinBytes (8 * B) bs) k = bs.getD k 0 := by
  have hB : 8 * B / 8 = B := by omega
  have key : ∀ n ≤ B, k < n →
      ((List.range n).map fun j => (bs.getD j 0).toNat * 2 ^ (8 * B - 8 - 8 * j)).sum /
        2 ^ (8 * B - 8 - 8 * k) % 256 = (bs.getD k 0).toNat := by
    intro n
    induction n with
    | zero => intro _ h; omega
    | succ n ih =>
      intro hn hkn
      obtain ⟨q, -, hq⟩ := joinBytes_prefix B bs n (by omega)
      rw [List.range_succ, List.map_append, List.sum_append]
      simp only [List.map_cons, List.map_nil, List.sum_cons, List.sum_nil, add_zero]
      have e2 : 2 ^ (8 * B - 8 * n) = 2 ^ (8 * B - 8 - 8 * n) * 256 := by
        rw [show 8 * B - 8 * n = (8 * B - 8 - 8 * n) + 8 by omega, pow_add]
        norm_num
      by_cases hlt : k < n
      · have := ih (by omega) hlt
        rw [hq] at this ⊢
        have hlt' : (bs.getD n 0).toNat * 2 ^ (8 * B - 8 - 8 * n) < 2 ^ (8 * B - 8 * n) := by
          rw [e2, mul_comm (2 ^ _)]
          exact Nat.mul_lt_mul_of_pos_right (bs.getD n 0).isLt (by positivity)
        have e1 : 2 ^ (8 * B - 8 - 8 * k) = 2 ^ (8 * B - 8 * n) * 2 ^ (8 * (n - k) - 8) := by
          rw [← pow_add]
          congr 1
          omega
        rw [e1, mul_comm q] at this ⊢
        rw [← Nat.div_div_eq_div_mul, Nat.mul_div_cancel_left _ (by positivity)] at this
        rwa [← Nat.div_div_eq_div_mul, Nat.mul_add_div (by positivity), Nat.div_eq_of_lt hlt',
          add_zero]
      · obtain rfl : k = n := by omega
        rw [hq, e2, show q * (2 ^ (8 * B - 8 - 8 * k) * 256) = 2 ^ (8 * B - 8 - 8 * k) * (256 * q) by ring,
          mul_comm (BitVec.toNat _), ← Nat.mul_add, Nat.mul_div_cancel_left _ (by positivity),
          Nat.mul_add_mod]
        exact Nat.mod_eq_of_lt (bs.getD k 0).isLt
  apply BitVec.eq_of_toNat_eq
  rw [byteOf, joinBytes, hB, BitVec.toNat_ofNat]
  exact key B le_rfl hk

/-- Unpacking a packed word gives its characters back, 0 past the end (R151). -/
theorem unpack_joinBytes (B : Nat) (bs : List Byte) :
    unpack (8 * B) (joinBytes (8 * B) bs) = (List.range B).map fun k => bs.getD k 0 := by
  rw [unpack, Nat.mul_div_cancel_left B (by norm_num : 0 < 8)]
  exact List.map_congr_left fun k hk => byteOf_joinBytes (List.mem_range.1 hk) bs

/-- Packing the characters of a word gives the word back, whatever follows them (R205). -/
theorem joinBytes_unpack {B w : Nat} (hw : w < 2 ^ (8 * B)) (rest : List Byte) :
    joinBytes (8 * B) (unpack (8 * B) w ++ rest) = w := by
  have hB : 8 * B / 8 = B := by omega
  have hget : ∀ k < B, (unpack (8 * B) w ++ rest).getD k 0 = byteOf (8 * B) w k := by
    intro k hk
    simp [unpack, hB, List.getD_eq_getElem?_getD, List.getElem?_append, hk]
  have key : ∀ n ≤ B, ((List.range n).map fun k =>
      ((unpack (8 * B) w ++ rest).getD k 0).toNat * 2 ^ (8 * B - 8 - 8 * k)).sum =
      w / 2 ^ (8 * B - 8 * n) * 2 ^ (8 * B - 8 * n) := by
    intro n
    induction n with
    | zero => intro _; simp [Nat.div_eq_of_lt hw]
    | succ n ih =>
      intro hn
      rw [List.range_succ, List.map_append, List.sum_append, ih (by omega)]
      simp only [List.map_cons, List.map_nil, List.sum_cons, List.sum_nil, add_zero]
      rw [hget n (by omega), byteOf, BitVec.toNat_ofNat,
        show 8 * B - 8 * (n + 1) = 8 * B - 8 - 8 * n by omega,
        show 8 * B - 8 * n = (8 * B - 8 - 8 * n) + 8 by omega, pow_add, ← Nat.div_div_eq_div_mul]
      have := Nat.div_add_mod (w / 2 ^ (8 * B - 8 - 8 * n)) 256
      generalize w / 2 ^ (8 * B - 8 - 8 * n) = x at this ⊢
      generalize 2 ^ (8 * B - 8 - 8 * n) = y at *
      show x / 256 * (y * 256) + x % 256 * y = x * y
      conv_rhs => rw [← this]
      ring
  rw [joinBytes, hB, key B le_rfl]
  simp

end Sys2Proof.Machine
end

