-- ==== Sys2Proof/Laws/PerInstr.lean ====
section
/-! SUPPORT. Facts about every instruction as syntax, one lemma per constructor (LAWS.json names the family). -/

namespace Sys2Proof.Laws

/-- The instruction has the format of its mnemonic (30_encoding.md R81, R83): as many operand words as the
arity, and it is well formed exactly when each of them is a word (R87). -/
def EncodesFormat.Statement (i : Instr) : Prop :=
  i.operands.length = i.opcode.arity ∧
    ∀ p : Params, i.wellFormed p = true ↔ ∀ o ∈ i.operands, isWord p.W o

theorem EncodesFormat.push (v : Nat) : EncodesFormat.Statement (.push v) :=
  ⟨rfl, by simp [Instr.wellFormed, Instr.operands]⟩

theorem EncodesFormat.pop : EncodesFormat.Statement .pop :=
  ⟨rfl, by simp [Instr.wellFormed, Instr.operands]⟩

theorem EncodesFormat.add : EncodesFormat.Statement .add :=
  ⟨rfl, by simp [Instr.wellFormed, Instr.operands]⟩

theorem EncodesFormat.sub : EncodesFormat.Statement .sub :=
  ⟨rfl, by simp [Instr.wellFormed, Instr.operands]⟩

theorem EncodesFormat.mul : EncodesFormat.Statement .mul :=
  ⟨rfl, by simp [Instr.wellFormed, Instr.operands]⟩

theorem EncodesFormat.div : EncodesFormat.Statement .div :=
  ⟨rfl, by simp [Instr.wellFormed, Instr.operands]⟩

theorem EncodesFormat.mod : EncodesFormat.Statement .mod :=
  ⟨rfl, by simp [Instr.wellFormed, Instr.operands]⟩

theorem EncodesFormat.inc : EncodesFormat.Statement .inc :=
  ⟨rfl, by simp [Instr.wellFormed, Instr.operands]⟩

theorem EncodesFormat.dec : EncodesFormat.Statement .dec :=
  ⟨rfl, by simp [Instr.wellFormed, Instr.operands]⟩

theorem EncodesFormat.jge (cmp addr : Nat) : EncodesFormat.Statement (.jge cmp addr) :=
  ⟨rfl, by simp [Instr.wellFormed, Instr.operands]⟩

theorem EncodesFormat.jgt (cmp addr : Nat) : EncodesFormat.Statement (.jgt cmp addr) :=
  ⟨rfl, by simp [Instr.wellFormed, Instr.operands]⟩

theorem EncodesFormat.jle (cmp addr : Nat) : EncodesFormat.Statement (.jle cmp addr) :=
  ⟨rfl, by simp [Instr.wellFormed, Instr.operands]⟩

theorem EncodesFormat.jlt (cmp addr : Nat) : EncodesFormat.Statement (.jlt cmp addr) :=
  ⟨rfl, by simp [Instr.wellFormed, Instr.operands]⟩

theorem EncodesFormat.jeq (cmp addr : Nat) : EncodesFormat.Statement (.jeq cmp addr) :=
  ⟨rfl, by simp [Instr.wellFormed, Instr.operands]⟩

theorem EncodesFormat.jmp (addr : Nat) : EncodesFormat.Statement (.jmp addr) :=
  ⟨rfl, by simp [Instr.wellFormed, Instr.operands]⟩

theorem EncodesFormat.out : EncodesFormat.Statement .out :=
  ⟨rfl, by simp [Instr.wellFormed, Instr.operands]⟩

theorem EncodesFormat.inLine (size addr : Nat) : EncodesFormat.Statement (.inLine size addr) :=
  ⟨rfl, by simp [Instr.wellFormed, Instr.operands]⟩

theorem EncodesFormat.dbg : EncodesFormat.Statement .dbg :=
  ⟨rfl, by simp [Instr.wellFormed, Instr.operands]⟩

theorem EncodesFormat.store (addr : Nat) : EncodesFormat.Statement (.store addr) :=
  ⟨rfl, by simp [Instr.wellFormed, Instr.operands]⟩

theorem EncodesFormat.load (addr : Nat) : EncodesFormat.Statement (.load addr) :=
  ⟨rfl, by simp [Instr.wellFormed, Instr.operands]⟩

theorem EncodesFormat.sstore : EncodesFormat.Statement .sstore :=
  ⟨rfl, by simp [Instr.wellFormed, Instr.operands]⟩

theorem EncodesFormat.sload : EncodesFormat.Statement .sload :=
  ⟨rfl, by simp [Instr.wellFormed, Instr.operands]⟩

theorem EncodesFormat.halt : EncodesFormat.Statement .halt :=
  ⟨rfl, by simp [Instr.wellFormed, Instr.operands]⟩

end Sys2Proof.Laws
end

