-- ==== Sys2Proof/Tests/Slice0.lean ====
section
/-! SUPPORT. Tests and witnesses. Every expected value of a `test_` is one of 95_test_vectors.md (the vector is
named; the conditional jumps of four of them are moved to index 0, their targets into a short stream) or
of a rule's own example; none was computed by the model. A `witness_<Obligation>` shows a state
and operands that meet the hypotheses of that obligation, one part for each of its clauses. -/

open Sys2Proof Sys2Proof.Machine Sys2Proof.Claims

namespace Sys2Proof.Tests

/-- A running default build with `stack` (top first), the stream `words` and `ip = ip`. -/
def start (stack words : List Nat) (ip : Nat := 0) : State :=
  { State.reset with run := .running, stack := stack, stream := words, ip := ip }

/-- The same on a build with STACK_CAP = 2, MEM_CAP = 8, STREAM_CAP = 4. -/
def tight (stack words : List Nat) : State :=
  { start stack words with
    params := { Params.default with stackCap := some 2, memCap := 8, streamCap := 4 } }

/-- The same state with memory of length `mlen` and the listed cells. -/
def withCells (s : State) (mlen : Nat) (cells : List (Nat × Nat)) : State :=
  { s with mem := { cells := cells, mlen := mlen } }

/-- The same state with the lines `ls` delivered. -/
def withLines (s : State) (ls : List (List Byte)) : State :=
  { s with input := { lines := ls, ended := false } }

/-- The same state, not running. -/
def idle (s : State) : State := { s with run := .idle }

/-- What GET_STATUS shows of a fault. -/
def status (s : State) : RunState × StopReason × FaultCode × Nat × Nat :=
  (s.run, s.stop, s.fault, s.faultIp, s.faultVal)

/-! ### WellFormed: an ill-formed term for each check -/

theorem test_wellFormed_refuses_one_operand :
    Instr.wellFormed Params.default (.push (2 ^ 32)) = false ∧
    Instr.wellFormed Params.default (.jmp (2 ^ 32)) = false ∧
    Instr.wellFormed Params.default (.store (2 ^ 32)) = false ∧
    Instr.wellFormed Params.default (.load (2 ^ 32)) = false ∧
    Instr.wellFormed Params.default (.push (2 ^ 32 - 1)) = true := by decide

theorem test_wellFormed_refuses_first_operand :
    Instr.wellFormed Params.default (.jge (2 ^ 32) 0) = false ∧
    Instr.wellFormed Params.default (.jgt (2 ^ 32) 0) = false ∧
    Instr.wellFormed Params.default (.jle (2 ^ 32) 0) = false ∧
    Instr.wellFormed Params.default (.jlt (2 ^ 32) 0) = false ∧
    Instr.wellFormed Params.default (.jeq (2 ^ 32) 0) = false ∧
    Instr.wellFormed Params.default (.inLine (2 ^ 32) 0) = false := by decide

theorem test_wellFormed_refuses_second_operand :
    Instr.wellFormed Params.default (.jge 0 (2 ^ 32)) = false ∧
    Instr.wellFormed Params.default (.jgt 0 (2 ^ 32)) = false ∧
    Instr.wellFormed Params.default (.jle 0 (2 ^ 32)) = false ∧
    Instr.wellFormed Params.default (.jlt 0 (2 ^ 32)) = false ∧
    Instr.wellFormed Params.default (.jeq 0 (2 ^ 32)) = false ∧
    Instr.wellFormed Params.default (.inLine 0 (2 ^ 32)) = false := by decide

/-- Each constraint of R7 refuses a build that breaks it. -/
theorem test_valid_refuses :
    [{ Params.default with W := 12 }, { Params.default with W := 2048 },
      { Params.default with opc := List.range 22 },
      { Params.default with opc := 1 :: List.range 22 }, { Params.default with memCap := 0 },
      { Params.default with streamCap := 2 ^ 32 + 1 },
      { Params.default with errCode := [0, 1, 2, 3, 3] }].all (fun p => !decide p.Valid) = true := by
  decide

/-! ### Decode: the words of 30_encoding.md R83 and R84, written out -/

theorem test_decode_stack_arithmetic :
    decodeAt Params.default [0x00000000, 0x0000002A] 0 = some (.instr (.push 0x2A)) ∧
    decodeAt Params.default [0x00000001] 0 = some (.instr .pop) ∧
    decodeAt Params.default [0x00000002] 0 = some (.instr .add) ∧
    decodeAt Params.default [0x00000003] 0 = some (.instr .sub) ∧
    decodeAt Params.default [0x00000004] 0 = some (.instr .mul) ∧
    decodeAt Params.default [0x00000005] 0 = some (.instr .div) ∧
    decodeAt Params.default [0x00000006] 0 = some (.instr .mod) ∧
    decodeAt Params.default [0x00000007] 0 = some (.instr .inc) ∧
    decodeAt Params.default [0x00000008] 0 = some (.instr .dec) := by decide

theorem test_decode_control :
    decodeAt Params.default [0x00000009, 0x5, 0x14] 0 = some (.instr (.jge 5 20)) ∧
    decodeAt Params.default [0x0000000A, 0x5, 0x14] 0 = some (.instr (.jgt 5 20)) ∧
    decodeAt Params.default [0x0000000B, 0x64, 0x2] 0 = some (.instr (.jle 100 2)) ∧
    decodeAt Params.default [0x0000000C, 0x5, 0x14] 0 = some (.instr (.jlt 5 20)) ∧
    decodeAt Params.default [0x0000000D, 0x0, 0x14] 0 = some (.instr (.jeq 0 20)) ∧
    decodeAt Params.default [0x0000000E, 0x8] 0 = some (.instr (.jmp 8)) ∧
    decodeAt Params.default [0x00000016] 0 = some (.instr .halt) := by decide

theorem test_decode_io_memory :
    decodeAt Params.default [0x0000000F] 0 = some (.instr .out) ∧
    decodeAt Params.default [0x00000010, 0xA, 0x0] 0 = some (.instr (.inLine 10 0)) ∧
    decodeAt Params.default [0x00000011] 0 = some (.instr .dbg) ∧
    decodeAt Params.default [0x00000012, 0x3] 0 = some (.instr (.store 3)) ∧
    decodeAt Params.default [0x00000013, 0x4] 0 = some (.instr (.load 4)) ∧
    decodeAt Params.default [0x00000014] 0 = some (.instr .sstore) ∧
    decodeAt Params.default [0x00000015] 0 = some (.instr .sload) := by decide

/-- V-DEC-A to V-DEC-E -/
theorem test_decode_rejects :
    decodeAt Params.default [0x17] 0 = some (.invalid 0x17) ∧
    decodeAt Params.default [0xFFFFFFFF] 0 = some (.invalid 0xFFFFFFFF) ∧
    decodeAt Params.default [0x100] 0 = some (.invalid 0x100) ∧
    decodeAt Params.default [0x0] 0 = some (.truncated .push 0x0) ∧
    decodeAt Params.default [0x16, 0x0B, 0x64] 1 = some (.truncated .jle 0xB) ∧
    decodeAt Params.default [] 0 = none := by decide

/-- The instances of `encode` in 95_test_vectors.md section 3.1. -/
theorem test_encode :
    encode Params.default (.jle 100 2) = [0xB, 0x64, 0x2] ∧
    encode Params.default (.inLine 10 0) = [0x10, 0xA, 0x0] ∧
    encode Params.default .halt = [0x16] := by decide

/-- Bit 0 of the table is the least significant bit of the first word; absent bits are 0. -/
theorem test_decodeTableWord :
    decodeTableWord 32 0x13 = some (.load 0) ∧
    decodeTableWord 64 0x0000000300000013 = some (.load 3) ∧
    decodeTableWord 96 0x00000002000000640000000B = some (.jle 100 2) ∧
    decodeTableWord 32 0x17 = none := by decide

/-- `withFetchWord` makes the next step run that instruction. -/
theorem test_withFetchWord :
    ((State.reset.withFetchWord 64 0x0000002A00000000).steps 1).stack = [0x2A] ∧
    ((State.reset.withFetchWord 32 0x16).steps 1).stop = .halted := by decide

/-! ### One step of each instruction (95_test_vectors.md section 2) -/

/-- V-PUSH-2, V-PUSH-3 -/
theorem test_push :
    ((start [7] [0, 0xFFFFFFFF]).steps 1).stack = [0xFFFFFFFF, 7] ∧
    ((start [7] [0, 0xFFFFFFFF]).steps 1).ip = 2 ∧
    status ((tight [1, 2] [0, 5]).steps 1) = (.faulted, .fault, .stackOverflow, 0, 5) := by decide

/-- V-POP-1, V-POP-2 -/
theorem test_pop :
    ((start [7, 9] [1]).steps 1).stack = [9] ∧
    status ((start [] [1]).steps 1) = (.faulted, .fault, .stackUnderflow, 0, 0) := by decide

/-- V-ADD-2, V-ADD-3 -/
theorem test_add :
    ((start [1, 0xFFFFFFFF] [2]).steps 1).stack = [0] ∧
    status ((start [5] [2]).steps 1) = (.faulted, .fault, .stackUnderflow, 0, 1) := by decide

/-- V-SUB-1, V-SUB-2, V-SUB-4 -/
theorem test_sub :
    ((start [3, 10] [3]).steps 1).stack = [7] ∧
    ((start [5, 3] [3]).steps 1).stack = [0xFFFFFFFE] ∧
    ((start [9, 9, 4] [3]).steps 1).stack = [0, 4] := by decide

/-- V-MUL-2, V-MUL-3 -/
theorem test_mul :
    ((start [0x10000, 0x10000] [4]).steps 1).stack = [0] ∧
    ((start [0xFFFFFFFF, 0xFFFFFFFF] [4]).steps 1).stack = [1] := by decide

/-- V-DIV-1, V-DIV-3, V-DIV-6, V-DIV-8 -/
theorem test_div :
    ((start [6, 20] [5]).steps 1).stack = [3] ∧
    ((start [0xFFFFFFFF, 0x80000000] [5]).steps 1).stack = [0] ∧
    status ((start [0, 5] [5]).steps 1) = (.faulted, .fault, .divideByZero, 0, 5) ∧
    status ((start [0] [5]).steps 1) = (.faulted, .fault, .stackUnderflow, 0, 1) := by decide

/-- V-MOD-2, V-MOD-4, V-MOD-6 -/
theorem test_mod :
    ((start [7, 2] [6]).steps 1).stack = [2] ∧
    ((start [0xFFFFFFFF, 0xFFFFFFFE] [6]).steps 1).stack = [0xFFFFFFFE] ∧
    ((start [0, 5] [6]).steps 1).stack = [0, 5] := by decide

/-- V-INC-2, V-INC-3 -/
theorem test_inc :
    ((start [0xFFFFFFFF, 5] [7]).steps 1).stack = [0, 5] ∧
    status ((start [] [7]).steps 1) = (.faulted, .fault, .stackUnderflow, 0, 0) := by decide

/-- V-DEC-1, V-DEC-2 -/
theorem test_dec :
    ((start [10] [8]).steps 1).stack = [9] ∧
    ((start [0] [8]).steps 1).stack = [0xFFFFFFFF] := by decide

/-- V-JGE-1, V-JGE-2, V-JGE-3 (the jump at index 0 here) -/
theorem test_jge :
    ((start [5] [9, 5, 3]).steps 1).ip = 3 ∧ ((start [0x80000000] [9, 1, 0]).steps 1).ip = 0 ∧
    ((start [4] [9, 5, 0]).steps 1).ip = 3 ∧ ((start [4] [9, 5, 0]).steps 1).stack = [4] := by
  decide

/-- V-JGT-2, V-JGT-3, and R132's example -/
theorem test_jgt :
    ((start [6] [0xA, 5, 1]).steps 1).ip = 1 ∧ ((start [5] [0xA, 5, 1]).steps 1).ip = 3 ∧
    ((start [0xFFFFFFFF] [0xA, 0xFFFFFFFF, 0]).steps 1).ip = 3 := by decide

/-- V-JLE-1, V-JLE-2 -/
theorem test_jle :
    ((start [100] [0, 0, 7, 0xB, 100, 2] 3).steps 1).ip = 2 ∧
    ((start [101] [0, 0, 7, 0xB, 100, 2] 3).steps 1).ip = 6 := by decide

/-- V-JLT-2, V-JLT-3, and R134's example -/
theorem test_jlt :
    ((start [4] [0xC, 5, 1]).steps 1).ip = 1 ∧ ((start [5] [0xC, 5, 1]).steps 1).ip = 3 ∧
    ((start [0xFFFFFFFF] [0xC, 1, 0]).steps 1).ip = 3 := by decide

/-- V-JEQ-3, V-JEQ-4, V-JEQ-5, V-JEQ-7 -/
theorem test_jeq :
    ((start [7] [1, 1, 1, 0xD, 7, 6] 3).steps 1).ip = 6 ∧
    status ((start [7] [1, 1, 1, 0xD, 7, 7] 3).steps 1) =
      (.faulted, .fault, .jumpOutOfRange, 3, 7) ∧
    ((start [8] [1, 1, 1, 0xD, 7, 999] 3).steps 1).ip = 6 ∧
    status ((start [] [1, 1, 1, 0xD, 7, 999] 3).steps 1) =
      (.faulted, .fault, .stackUnderflow, 3, 0) := by decide

/-- V-JMP-2, V-JMP-3 -/
theorem test_jmp :
    ((start [] [1, 1, 1, 1, 1, 0xE, 7] 5).steps 1).ip = 7 ∧
    status ((start [] [1, 1, 1, 1, 1, 0xE, 8] 5).steps 1) =
      (.faulted, .fault, .jumpOutOfRange, 5, 8) := by decide

/-- V-HALT-1 -/
theorem test_halt :
    ((start [] [0x16]).steps 1).ip = 1 ∧
    status ((start [] [0x16]).steps 1) = (.idle, .halted, .none, 0, 0) := by decide

/-- R152: the zero byte does not stop the scan, and nothing is popped. -/
theorem test_out :
    ((start [0x61006200] [0xF]).steps 1).output = [.char 0x61, .char 0x62] ∧
    ((start [0x48690A00] [0xF]).steps 1).output = [.char 0x48, .char 0x69, .char 0x0A] ∧
    ((start [0x48690A00] [0xF]).steps 1).stack = [0x48690A00] := by decide

/-- V-DBG-1, V-DBG-2, V-DBG-4 with the texts of R158 -/
theorem test_dbg :
    ((start [0xFF] [0x11]).steps 1).output = [.dbg 0xFF] ∧
    dbgText Params.default 0xFF = [0x66, 0x66, 0x0A] ∧
    dbgText Params.default 0 = [0x30, 0x0A] ∧
    dbgText Params.default 0xDEADBEEF =
      [0x64, 0x65, 0x61, 0x64, 0x62, 0x65, 0x65, 0x66, 0x0A] := by decide

/-- V-IN-3: a short line on used memory, the terminator at `addr + size`. -/
theorem test_in_short_line :
    ((withLines (withCells (start [] [0x10, 3, 1]) 6
        [(0, 0x11111111), (1, 0x22222222), (2, 0x33333333), (3, 0x44444444), (4, 0x55555555),
         (5, 0x66666666)]) [[0x61, 0x62]]).steps 1).mem =
      { cells := [(0, 0x11111111), (1, 0x61620000), (2, 0x33333333), (3, 0x44444444),
          (5, 0x66666666)], mlen := 6 } := by decide

/-- V-IN-2 (a long line), V-IN-7 (the check comes before the read) -/
theorem test_in_long_line_and_overflow :
    ((withLines (start [] [0x10, 2, 4])
        [[0x61, 0x62, 0x63, 0x64, 0x65, 0x66, 0x67, 0x68, 0x69, 0x6A, 0x6B, 0x6C]]).steps 1).mem =
      { cells := [(4, 0x61626364), (5, 0x65666768)], mlen := 7 } ∧
    status ((withLines (start [] [0x10, 1, 0xFFFFFFFF]) [[0x61]]).steps 1) =
      (.faulted, .fault, .memoryOverflow, 0, 0xFFFFFFFF) ∧
    ((withLines (start [] [0x10, 1, 0xFFFFFFFF]) [[0x61]]).steps 1).input.lines = [[0x61]] := by
  decide

/-- V-IN-9: with no line the engine waits and stays RUNNING. -/
theorem test_in_waits :
    ((start [] [0x10, 1, 0]).steps 1).run = .running ∧
    ((start [] [0x10, 1, 0]).steps 1).ip = 0 := by decide

/-- V-STORE-1, V-STORE-4, V-STORE-5 -/
theorem test_store :
    ((start [0x2A, 9] [0x12, 3]).steps 1).mem = { cells := [(3, 0x2A)], mlen := 4 } ∧
    ((start [0x2A, 9] [0x12, 3]).steps 1).stack = [9] ∧
    status ((tight [5] [0x12, 8]).steps 1) = (.faulted, .fault, .memoryOverflow, 0, 8) ∧
    ((tight [5] [0x12, 7]).steps 1).mem.mlen = 8 := by decide

/-- V-LOAD-1, V-LOAD-2, V-LOAD-4, V-LOAD-5 -/
theorem test_load :
    ((withCells (start [9] [0x13, 3]) 4 [(3, 0x2A)]).steps 1).stack = [0x2A, 9] ∧
    status ((withCells (start [9] [0x13, 4]) 4 [(3, 0x2A)]).steps 1) =
      (.faulted, .fault, .unallocatedRead, 0, 4) ∧
    ((withCells (start [] [0x13, 1]) 4 [(3, 0x2A)]).steps 1).stack = [0] ∧
    status ((withCells (tight [1, 2] [0x13, 2]) 3 [(2, 5)]).steps 1) =
      (.faulted, .fault, .stackOverflow, 0, 2) := by decide

/-- V-SSTORE-1, V-SSTORE-2 -/
theorem test_sstore :
    ((start [3, 7, 9] [0x14]).steps 1).mem = { cells := [(3, 7)], mlen := 4 } ∧
    ((start [3, 7, 9] [0x14]).steps 1).stack = [9] ∧
    status ((start [3] [0x14]).steps 1) = (.faulted, .fault, .stackUnderflow, 0, 1) := by decide

/-- V-SLOAD-1, V-SLOAD-2 -/
theorem test_sload :
    ((withCells (start [3, 9] [0x15]) 4 [(3, 0x2A)]).steps 1).stack = [0x2A, 9] ∧
    ((withCells (start [4, 9] [0x15]) 4 [(3, 0x2A)]).steps 1).stack = [4, 9] ∧
    status ((withCells (start [4, 9] [0x15]) 4 [(3, 0x2A)]).steps 1) =
      (.faulted, .fault, .unallocatedRead, 0, 4) := by decide

/-! ### The cycle -/

/-- V-DEC-F, V-DEC-B, V-DEC-E -/
theorem test_cycle_ends_or_faults :
    status ((start [] []).steps 1) = (.idle, .endOfStream, .none, 0, 0) ∧
    status ((start [] [0xFFFFFFFF]).steps 1) =
      (.faulted, .fault, .invalidInstruction, 0, 0xFFFFFFFF) ∧
    status ((start [1] [0x16, 0x0B, 0x64] 1).steps 1) =
      (.faulted, .fault, .truncatedInstruction, 1, 0xB) := by decide

/-- V-DEC-G, V-DEC-H: the trace event is out before the fault. -/
theorem test_trace :
    (({ start [] [0x17] with trace := true } : State).steps 1).output = [.trace 0x17 none] ∧
    (({ start [5] [2] with trace := true } : State).steps 1).output = [.trace 2 (some 5)] := by
  decide

/-! ### Packing, persisted format, host commands, assembler -/

/-- S5 -/
theorem test_pack :
    pack 32 [0x61, 0x62, 0x63, 0x64] = [0x61626364] ∧ pack 32 [0x61, 0x62] = [0x61620000] ∧
    pack 32 [] = [] ∧ pack 32 [0x61, 0x62, 0x63, 0x64, 0x65] = [0x61626364, 0x65000000] ∧
    pack 16 [0x61, 0x62, 0x63] = [0x6162, 0x6300] ∧
    pack 64 [0x61, 0x62, 0x63, 0x64] = [0x6162636400000000] := by decide

/-- V-SAVE-3 -/
theorem test_save :
    fileBytes Params.default [0x00000000, 0xDEADBEEF] =
      [0x01, 0x04, 0, 0, 0, 0, 0, 0, 0, 0, 0, 0, 0, 0, 0, 0, 0, 0,
       0x00, 0x00, 0x00, 0x00, 0xDE, 0xAD, 0xBE, 0xEF] ∧
    fileBytes { Params.default with W := 16 } [0x0000, 0xBEEF] =
      [0x01, 0x02, 0, 0, 0, 0, 0, 0, 0, 0, 0, 0, 0, 0, 0, 0, 0, 0, 0x00, 0x00, 0xBE, 0xEF] := by
  decide

/-- V-LOAD-F4, V-LOAD-F6 to V-LOAD-F8, V-LOAD-F10, V-LOAD-F11 -/
theorem test_load_command :
    (hostCommand (.load (.bytes ([2, 4] ++ List.replicate 16 0 ++ [0, 0, 0, 0x16])))
      State.reset).2.err = .versionMismatch ∧
    (hostCommand (.load (.bytes [2, 8])) State.reset).2.err = .versionMismatch ∧
    (hostCommand (.load (.bytes [])) State.reset).2.err = .versionMismatch ∧
    (hostCommand (.load (.bytes [1])) State.reset).2.err = .wordSizeMismatch ∧
    (hostCommand (.load (.bytes ([1, 4] ++ List.replicate 16 0 ++ [0, 0, 0, 0x16, 0, 0])))
      State.reset).2.stream = [0x16] ∧
    (hostCommand (.load (.bytes ([1, 4] ++ List.replicate 16 0xFF ++ [0, 0, 0, 0x16])))
      State.reset).2.stream = [0x16] := by decide

/-- V-HOST-8: STREAM_CAP = 4 and `slen = 3`. -/
theorem test_emit_at_capacity :
    hostCommand (.emit (.push 1)) (idle (tight [] [7, 7, 7])) =
      (.full, idle (tight [] [7, 7, 7])) ∧
    (hostCommand (.emit .pop) (idle (tight [] [7, 7, 7]))).1 = .ok := by decide

/-- V-HOST-5, V-HOST-7 -/
theorem test_commands_after_a_fault :
    (hostCommand .execute ((start [0, 1] [5]).steps 1)).1 = .refused ∧
    (hostCommand .peek ((start [0, 1] [5]).steps 1)).1 = .top (some 0) ∧
    (hostCommand .getError ((start [0, 1] [5]).steps 1)).1 = .error .noError ∧
    (hostCommand .reset ((start [0, 1] [5]).steps 1)).2.stream = [5] := by decide

/-- V-ASM-2, V-ASM-16 -/
theorem test_assembler_accepts :
    assemble Params.default
      [0x70, 0x75, 0x73, 0x68, 0x20, 0x27, 0x41, 0x27, 0x0A, 0x6F, 0x75, 0x74, 0x0A] =
      { emitted := [.push 0x41, .out], error := none } ∧
    assemble Params.default [0x69, 0x6E, 0x20, 0x31, 0x30, 0x20, 0x30, 0x0A] =
      { emitted := [.inLine 10 0], error := none } := by decide

/-- V-ASM-5, V-ASM-7, V-ASM-8 -/
theorem test_assembler_rejects :
    assemble Params.default [0x70, 0x75, 0x73, 0x68, 0x0A] =
      { emitted := [], error := some (1, .badOperand) } ∧
    assemble Params.default
      [0x70, 0x75, 0x73, 0x68, 0x20, 0x31, 0x0A, 0x6A, 0x6D, 0x70, 0x20, 0x27, 0x61, 0x27, 0x0A] =
      { emitted := [.push 1], error := some (2, .badOperand) } ∧
    assemble Params.default
      [0x70, 0x75, 0x73, 0x68, 0x20, 0x31, 0x0A, 0x61, 0x64, 0x64, 0x20, 0x33, 0x0A] =
      { emitted := [.push 1, .add], error := some (2, .extraToken) } := by decide

/-- R97 with R101 and R102: the textual forms of the tokens of ` 'A'`, a line feed, `7` and `-`. -/
theorem test_token_text :
    (nextToken [0x20, 0x27, 0x41, 0x27]).1.text = [0x27, 0x41, 0x27] ∧
    (nextToken [0x0A]).1.text = [0x0A] ∧ (nextToken []).1.text = [] ∧
    (nextToken [0x30, 0x37, 0x20]).1.text = [0x30, 0x37] ∧
    (nextToken [0x2D, 0x31]).1.text = [0x2D] := by decide

/-! ### Witnesses -/

/-- The last depth with room and the first without. -/
theorem witness_PushPlacesItsOperand : hasRoom (tight [1] []) ∧ isFull (tight [1, 2] []) :=
  ⟨by intro cap h; cases h; decide, 2, rfl, by decide⟩

theorem witness_PopDiscardsTheTop : (start [] []).stack = [] ∧ (start [7] []).stack = 7 :: [] :=
  ⟨rfl, rfl⟩

theorem witness_AddSubMulModuloWordCount :
    (start [5] []).depth < 2 ∧ (start [0xFFFFFFFF, 0] []).stack = 0xFFFFFFFF :: 0 :: [] := by decide

theorem witness_DivModUnsignedOrFault :
    (start [0] []).depth < 2 ∧ (start [0, 5] []).stack = 0 :: 5 :: [] ∧
    ((start [1, 5] []).stack = 1 :: 5 :: [] ∧ 1 ≠ 0) := by decide

theorem witness_DivModIdentity :
    ((start [0, 5] []).stack = 0 :: 5 :: [] ∧ 0 = 0) ∧
    ((start [7, 20] []).stack = 7 :: 20 :: [] ∧ 7 ≠ 0) := by decide

theorem witness_IncDecModuloWordCount :
    (start [] []).stack = [] ∧ (start [0xFFFFFFFF] []).stack = 0xFFFFFFFF :: [] := by decide

/-- JLE at the equal top (taken, target `slen` and `slen + 1`) and one above it (not taken). -/
theorem witness_ConditionalJumpsPeekAndCompare :
    (Instr.jle, Opcode.jle, 11, fun t c => t ≤ c) ∈ conditionalJumps ∧
    (start [] [0xB, 100, 2]).stack = [] ∧
    ((start [101] [0xB, 100, 2]).stack = 101 :: [] ∧ ¬101 ≤ 100) ∧
    ((start [100] [0xB, 100, 3]).stack = 100 :: [] ∧ 100 ≤ 100 ∧
      3 ≤ (start [100] [0xB, 100, 3]).slen) ∧
    ((start [100] [0xB, 100, 4]).stack = 100 :: [] ∧ 100 ≤ 100 ∧
      (start [100] [0xB, 100, 4]).slen < 4) :=
  ⟨by simp [conditionalJumps], by decide, by decide, by decide, by decide⟩

theorem witness_JmpSetsIp :
    2 ≤ (start [] [0xE, 2]).slen ∧ (start [] [0xE, 3]).slen < 3 := by decide

theorem witness_JumpToTheEndEndsTheRun : (start [] [0xE, 2]).run = .running := by decide

theorem witness_OutEmitsNonZeroBytes :
    (start [] []).stack = [] ∧ (start [0x61006200] []).stack = 0x61006200 :: [] := by decide

theorem witness_DbgEmitsTheTop :
    (start [] []).stack = [] ∧ (start [0] []).stack = 0 :: [] := by decide

/-- The last span that fits and the first that does not; no line, one line, the end of the input. -/
theorem witness_InStoresOneLine :
    (tight [] []).params.memCap ≤ 1 + 7 ∧
    (0 + 7 < (tight [] []).params.memCap ∧ lineAwaited (tight [] [])) ∧
    (0 + 7 < (tight [] []).params.memCap ∧ (tight [] []).mem.wf ∧
      lineRead (withLines (tight [] []) [[0x61]]) [0x61] ⟨[], false⟩) ∧
    lineRead
      { start [] [] with
        input := ⟨[], true⟩, params := { Params.default with eofPolicy := .empty } }
      [] ⟨[], true⟩ :=
  ⟨by decide, ⟨by decide, rfl, by decide⟩, ⟨by decide, by decide, .inl ⟨rfl, rfl⟩⟩,
    .inr ⟨rfl, rfl, rfl, rfl, rfl⟩⟩

theorem witness_InWaitsForALine :
    (start [] [0x10, 1, 0]).run = .running ∧
    decodeAt (start [] [0x10, 1, 0]).params (start [] [0x10, 1, 0]).stream
      (start [] [0x10, 1, 0]).ip = some (.instr (.inLine 1 0)) ∧
    0 + 1 < (start [] [0x10, 1, 0]).params.memCap ∧ lineAwaited (start [] [0x10, 1, 0]) ∧
    (start [] [0x10, 1, 0]).mem.wf :=
  ⟨rfl, by decide, by decide, ⟨rfl, by decide⟩, by decide⟩

theorem witness_StoreWritesAndPops :
    (tight [] []).stack = [] ∧
    ((tight [5] []).stack = 5 :: [] ∧ (tight [5] []).params.memCap ≤ 8) ∧
    ((tight [5] []).stack = 5 :: [] ∧ 7 < (tight [5] []).params.memCap ∧
      (tight [5] []).mem.wf) := by decide

/-- `mlen` itself is out, the last cell is in, with the stack full and with room for one; a cell below it
is allocated and not listed. -/
theorem witness_LoadPushesTheCell :
    (withCells (tight [1] []) 3 [(2, 5)]).mem.mlen ≤ 3 ∧
    (2 < (withCells (tight [1, 2] []) 3 [(2, 5)]).mem.mlen ∧
      isFull (withCells (tight [1, 2] []) 3 [(2, 5)])) ∧
    (2 < (withCells (tight [1] []) 3 [(2, 5)]).mem.mlen ∧
      hasRoom (withCells (tight [1] []) 3 [(2, 5)])) ∧
    (1 < (withCells (tight [1] []) 3 [(2, 5)]).mem.mlen ∧
      ∀ w, (1, w) ∉ (withCells (tight [1] []) 3 [(2, 5)]).mem.cells) :=
  ⟨by decide, ⟨by decide, 2, rfl, by decide⟩, ⟨by decide, by intro cap h; cases h; decide⟩,
    by decide, by simp [withCells]⟩

theorem witness_SstoreWritesAtTheTop :
    (tight [3] []).depth < 2 ∧
    ((tight [8, 1] []).stack = 8 :: 1 :: [] ∧ (tight [8, 1] []).params.memCap ≤ 8) ∧
    ((tight [7, 1] []).stack = 7 :: 1 :: [] ∧ 7 < (tight [7, 1] []).params.memCap ∧
      (tight [7, 1] []).mem.wf) := by decide

theorem witness_SloadReplacesTheAddress :
    (start [] []).stack = [] ∧
    ((withCells (start [4, 9] []) 4 [(3, 0x2A)]).stack = 4 :: [9] ∧
      (withCells (start [4, 9] []) 4 [(3, 0x2A)]).mem.mlen ≤ 4) ∧
    ((withCells (start [3, 9] []) 4 [(3, 0x2A)]).stack = 3 :: [9] ∧
      3 < (withCells (start [3, 9] []) 4 [(3, 0x2A)]).mem.mlen) ∧
    ((withCells (start [0, 9] []) 4 [(3, 0x2A)]).stack = 0 :: [9] ∧
      ∀ w, (0, w) ∉ (withCells (start [0, 9] []) 4 [(3, 0x2A)]).mem.cells) :=
  ⟨by decide, by decide, by decide, rfl, by simp [withCells]⟩

theorem witness_CanonicalMemoriesReadingAlikeAreEqual :
    Memory.wf ⟨[(3, 7)], 4⟩ ∧ ∀ x, Memory.read ⟨[(3, 7)], 4⟩ x = Memory.read ⟨[(3, 7)], 4⟩ x :=
  ⟨by decide, fun _ => rfl⟩

theorem witness_UnderflowOfEveryInstruction :
    (Instr.opcode .sstore, 2) ∈ stackNeed ∧ (start [5] []).depth < 2 ∧
    (Instr.opcode (.jeq 7 0), 1) ∈ stackNeed ∧ (start [] []).depth < 1 := by decide

theorem witness_FaultsArePrecise :
    (start [0, 5] [5]).run = .running ∧
    step (start [0, 5] [5]) = .next ((start [0, 5] [5]).steps 1) ∧
    ((start [0, 5] [5]).steps 1).run = .faulted := ⟨by decide, rfl, by decide⟩

theorem witness_FaultsHaveTheirCauses :
    (start [0, 5] []).run = .running ∧
    exec .div (start [0, 5] []) = .next ((start [0, 5] []).raise .divideByZero 5) ∧
    ((start [0, 5] []).raise .divideByZero 5).run = .faulted ∧
    (start [7] []).run = .running ∧
    exec (.jeq 7 1) (start [7] []) = .next ((start [7] []).raise .jumpOutOfRange 1) :=
  ⟨by decide, rfl, by decide, by decide, rfl⟩

/-- Two faults apply at once in every clause. -/
theorem witness_FaultOrder :
    (start [0] []).stack = [0] ∧
    ((tight [1, 2] []).mem.mlen ≤ 0 ∧ isFull (tight [1, 2] [])) ∧
    ((tight [] []).stack = [] ∧ (tight [] []).params.memCap ≤ 8) ∧
    ((tight [8] []).stack = [8] ∧ (tight [8] []).params.memCap ≤ 8) ∧
    ((start [] [0xB, 5]).stack = [] ∧ (start [] [0xB, 5]).slen < 3) ∧
    ((start [] [0xB, 5]).run = .running ∧ (start [] [0xB, 5]).stack = [] ∧
      (start [] [0xB, 5]).params.opcodeOf 0xB = some .jle ∧
      (start [] [0xB, 5]).stream.drop (start [] [0xB, 5]).ip = [0xB, 5]) :=
  ⟨rfl, ⟨by decide, 2, rfl, by decide⟩, by decide, by decide, by decide, by decide⟩

theorem witness_StepRunsTheDecodedInstruction :
    (start [] [0, 42]).run = .running ∧
    decodeAt (start [] [0, 42]).params (start [] [0, 42]).stream (start [] [0, 42]).ip =
      some (.instr (.push 42)) := by decide

theorem witness_StepEndsTheRunAtTheEndOfTheStream :
    (start [] [0x16] 1).run = .running ∧ (start [] [0x16] 1).slen ≤ (start [] [0x16] 1).ip := by
  decide

/-- 23 is the first illegal word; PUSH with its operand missing. -/
theorem witness_UndecodableWordsFault :
    ((start [] [23]).run = .running ∧
      (start [] [23]).stream.drop (start [] [23]).ip = 23 :: [] ∧
      ∀ m, (start [] [23]).params.opcodeNumber m ≠ 23) ∧
    ((start [] [0]).run = .running ∧ (start [] [0]).stream.drop (start [] [0]).ip = 0 :: [] ∧
      (start [] [0]).params.opcodeOf 0 = some .push ∧
      (start [] [0]).slen < (start [] [0]).ip + 1 + Opcode.arity .push) :=
  ⟨⟨rfl, rfl, fun m => by cases m <;> decide⟩, by decide⟩

theorem witness_StoppedEngineExecutesNothing :
    State.reset.run ≠ .running ∧ ((start [] [1]).steps 1).run ≠ .running := by decide

theorem witness_OneTraceEventPerCycle :
    (start [] [0x16] 1).run = .running ∧ (start [] [0x16] 1).waiting = false ∧
    step (start [] [0x16] 1) = .next ((start [] [0x16] 1).steps 1) ∧
    (start [] [0x16] 1).slen ≤ (start [] [0x16] 1).ip ∧
    step (start [7] [0x11]) = .next ((start [7] [0x11]).steps 1) ∧
    (start [7] [0x11]).stream.drop (start [7] [0x11]).ip = 0x11 :: [] :=
  ⟨by decide, by decide, rfl, by decide, rfl, by decide⟩

theorem witness_TraceChangesNothingButOutput :
    step (start [7] [0x11]) = .next ((start [7] [0x11]).steps 1) := rfl

theorem witness_RunsEndInThreeWays :
    (start [] [0x16]).run = .running ∧
    step (start [] [0x16]) = .next ((start [] [0x16]).steps 1) ∧
    ((start [] [0x16]).steps 1).run ≠ .running := ⟨by decide, rfl, by decide⟩

theorem witness_DecodeOfEncode : Params.default.Valid := by decide

theorem witness_EncodeOfDecode :
    decode Params.default 0xB [100, 2, 7] = .instr (.jle 100 2) := by decide

theorem witness_DecodeRejectsExactlyIllegalWords :
    Params.default.Valid ∧ Params.default.opcodeNumber .jle = 0xB := by decide

theorem witness_ProgramRoundTrip :
    Params.default.Valid ∧ [Instr.push 42, .halt].length ≤ 2 := by decide

/-- A state in the middle of a run meets the invariant, and its step answers a next state. -/
theorem witness_StepKeepsTheInvariant :
    (withCells (start [7, 9] [0, 1, 0x12, 3] 2) 2 [(1, 5)]).Inv ∧
    step (withCells (start [7, 9] [0, 1, 0x12, 3] 2) 2 [(1, 5)]) =
      .next ((withCells (start [7, 9] [0, 1, 0x12, 3] 2) 2 [(1, 5)]).steps 1) :=
  ⟨by decide, rfl⟩

theorem witness_OutsideEventsKeepTheInvariant : ((start [0, 5] [5]).steps 1).Inv := by decide

theorem witness_StepsLeaveStreamErrTraceParams :
    step (start [7] [0x12, 3]) = .next ((start [7] [0x12, 3]).steps 1) := rfl

/-- A step that grows memory. -/
theorem witness_MemoryNeverShrinks :
    step (start [7] [0x12, 3]) = .next ((start [7] [0x12, 3]).steps 1) ∧
    ((start [7] [0x12, 3]).steps 1).mem.mlen ≠ (start [7] [0x12, 3]).mem.mlen := ⟨rfl, by decide⟩

theorem witness_OutputIsOnlyAppended :
    step (start [7] [0x11]) = .next ((start [7] [0x11]).steps 1) := rfl

theorem witness_OnlyInReadsALine :
    step (withLines (start [] [0x10, 1, 0]) [[0x61]]) =
      .next ((withLines (start [] [0x10, 1, 0]) [[0x61]]).steps 1) := rfl

theorem witness_IpAdvancesExceptByJumps :
    exec (.jmp 2) (start [] [0xE, 2]) = .next ((start [] [0xE, 2]).jumpTo 2) := rfl

theorem witness_PowerOnState : State.reset.powerOn = State.reset := by decide

theorem witness_ClearAndReset :
    State.reset.run ≠ .running ∧ ((start [] [1]).steps 1).run ≠ .running := by decide

theorem witness_CommandsAcceptedOrRefused :
    (start [] []).run = .running ∧
    (((start [] [1]).steps 1).run = .faulted ∧ Command.execute = .execute ∧
      Command.clear = .clear) ∧
    (State.reset.run = .idle ∧
      (Command.emit (.push (2 ^ 32 - 1))).wellFormed State.reset.params = true) := by decide

theorem witness_ReadOutsAndSetTrace :
    ((start [] [1]).steps 1).run ≠ .running ∧ ((start [] [1]).steps 1).stack = [] ∧
    ((start [0, 5] [5]).steps 1).run ≠ .running ∧
    ((start [0, 5] [5]).steps 1).stack = 0 :: [5] := by decide

/-- The last EMIT that fits and the first that does not. -/
theorem witness_EmitAppendsOrIsFull :
    (idle (tight [] [7, 7, 7])).run = .idle ∧
    Instr.wellFormed (tight [] []).params .pop = true ∧
    Instr.wellFormed (tight [] []).params (.push 1) = true ∧
    (tight [] [7, 7, 7]).slen + (1 + Opcode.arity .pop) ≤ (tight [] []).params.streamCap ∧
    (tight [] []).params.streamCap < (tight [] [7, 7, 7]).slen + (1 + Opcode.arity .push) := by
  decide

theorem witness_ExecuteStartsAndEnds :
    State.reset.run = .idle ∧ State.reset.ip = State.reset.slen := by decide

theorem witness_PackingRule :
    (32 % 8 = 0 ∧ 8 ≤ 32) ∧ 0 < (pack 32 [0x61]).length := by decide

theorem witness_SaveWritesTheFormat :
    State.reset.run = .idle ∧ State.reset.params.Valid ∧ 17 < 18 ∧
    3 < (start [] [0, 0x2A, 0x16, 1]).params.W / 8 ∧ 3 < (start [] [0, 0x2A, 0x16, 1]).slen := by
  decide

/-- No byte; one good byte; a good header with one word into an empty and into a full stream. -/
theorem witness_LoadChecksThenAppends :
    State.reset.run = .idle ∧
    ([] : List Byte)[0]? ≠ some State.reset.params.bcVersion ∧
    (([1] : List Byte)[0]? = some State.reset.params.bcVersion ∧
      (([1] : List Byte)[1]?).map BitVec.toNat ≠ some (State.reset.params.W / 8)) ∧
    (([1, 4] : List Byte)[0]? = some State.reset.params.bcVersion ∧
      (([1, 4] : List Byte)[1]?).map BitVec.toNat = some (State.reset.params.W / 8) ∧
      State.reset.slen + 0 ≤ State.reset.params.streamCap) ∧
    (tight [] []).params.streamCap < (tight [] [7, 7, 7, 7]).slen + 1 := by decide

theorem witness_SaveThenLoadReproducesTheStream :
    (idle (start [] [0, 0x2A, 0x16])).Inv ∧ State.reset.Inv ∧
    State.reset.run = .idle ∧
    (hostCommand (.save .ok) (idle (start [] [0, 0x2A, 0x16]))).1 =
      .bytes (fileBytes Params.default [0, 0x2A, 0x16]) ∧
    (start [] [0, 0x2A, 0x16]).slen ≤ State.reset.params.streamCap :=
  ⟨by decide, by decide, rfl, rfl, by decide⟩

/-- The other width: an engine of W = 64 that meets the invariant. -/
theorem witness_SaveThenLoadReproducesTheStream_other_width :
    ({ State.reset with
      params := { Params.default with W := 64, memCap := 2 ^ 64, streamCap := 2 ^ 64 } } :
        State).Inv := by decide

theorem witness_ErrIsStickyAcrossSuccesses :
    (hostCommand (.load .openFailed) State.reset).2.err ≠ State.reset.err ∧
    (hostCommand .clear { State.reset with err := .fileOpen }).2.err ≠ ErrorState.fileOpen := by
  decide

theorem witness_DbgTextIsTheWordInBase16 :
    Params.default.Valid ∧ 0xFFFFFFFF < 2 ^ Params.default.W ∧ 0 < 2 ^ Params.default.W ∧
    Params.default.dbgFormat = Params.default.dbgFormat := by decide

theorem witness_AssemblerEmitsOnlyWords :
    8 ≤ Params.default.W ∧
    (assemble Params.default [0x70, 0x0A]).error = some (1, .badMnemonic) := by decide

theorem witness_AssemblerReadsBackListings :
    ∀ i ∈ [Instr.jle 100 2, .halt], i.wellFormed Params.default = true := by decide

theorem witness_TokensCoverTheText :
    nextToken [0x20, 0x27, 0x41, 0x27, 0x0A] = (.character 0x41, [0x0A]) ∧
    nextToken [0x20] = (.endOfInput, []) := by decide

end Sys2Proof.Tests
end

section
/-! PROOF. The length of data memory (20_memory.md R54): which operations can change it, said once for an
instruction, for a step and for a host command. -/

namespace Sys2Proof

/-- The decoder reads the opcode word at index `k` with the words after it (R88). -/
theorem decodeAt_of_drop {p : Params} {stream : List Nat} {k w : Nat} {rest : List Nat}
    (h : stream.drop k = w :: rest) : decodeAt p stream k = some (decode p w rest) := by
  simp only [decodeAt, h]

namespace Machine

variable {i : Instr} {s t : State}

@[simp] theorem State.fetched_mem (s : State) (op : Nat) : (s.fetched op).mem = s.mem := rfl

/-- Reading a line takes it from the input source and leaves memory alone (R154). -/
theorem State.readLine_mem {line : List Byte} (h : s.readLine = some (line, t)) :
    t.mem = s.mem := by
  rcases s.readLine_cases with ⟨_, _, -, e⟩ | ⟨-, -, -, e⟩ | ⟨-, -, e⟩ <;> rw [e] at h <;> cases h
  · rfl
  · rfl

/-- The instructions that write memory (R54): the ones whose meaning contains a `MemWrite`. -/
def storingOpcodes : List Opcode := [.store, .sstore, .inLine]

/-- Only a storing instruction changes memory, and none shortens it (R54). -/
theorem Effect.mem_cases (h : Effect i s t) :
    t.mem = s.mem ∨ (i.opcode ∈ storingOpcodes ∧ s.mem.mlen ≤ t.mem.mlen) := by
  cases h with
  | storedLine size addr line u hi hc hr =>
    have hu : u.mem = s.mem := State.readLine_mem hr
    refine .inr ⟨by simp [hi, Instr.opcode, storingOpcodes], ?_⟩
    simp [Memory.storeLine_mlen, hu]
  | stored addr v rest hi =>
    have hop : i.opcode ∈ storingOpcodes := List.mem_append_left [Opcode.inLine] hi
    exact .inr ⟨hop, by simp⟩
  | raised => exact .inl rfl
  | waited => exact .inl rfl
  | stacked => exact .inl rfl
  | emitted => exact .inl rfl
  | jumped => exact .inl rfl
  | halted => exact .inl rfl

/-- A step leaves memory alone, or it runs a storing instruction, which does not shorten it (R54). -/
theorem step_mem_cases (h : step s = .next t) :
    t.mem = s.mem ∨ ∃ i, decodeAt s.params s.stream s.ip = some (.instr i) ∧
      i.opcode ∈ storingOpcodes ∧ s.mem.mlen ≤ t.mem.mlen := by
  rcases step_cases s with ⟨-, e⟩ | ⟨-, -, e⟩ |
    ⟨-, op, rest, hd, ⟨-, e⟩ | ⟨_, -, e⟩ | ⟨i, hdec, e⟩⟩ <;> rw [e] at h
  · exact .inl (Host.Outcome.next.inj h ▸ rfl)
  · exact .inl (Host.Outcome.next.inj h ▸ rfl)
  · exact .inl (Host.Outcome.next.inj h ▸ rfl)
  · exact .inl (Host.Outcome.next.inj h ▸ rfl)
  · rcases (exec_effect h).mem_cases with hmem | ⟨hop, hle⟩
    · exact .inl hmem
    · exact .inr ⟨i, by rw [decodeAt_of_drop hd, hdec], hop, hle⟩

/-- Appending to the stream leaves memory alone (R190). -/
theorem State.appendWords_mem (s : State) (ws : List Nat) : (s.appendWords ws).2.mem = s.mem := by
  rcases s.appendWords_cases ws with ⟨-, e⟩ | ⟨-, e⟩ <;> rw [e]

/-- SAVE writes at most `err` (R203, R204). -/
theorem State.save_mem (s : State) (sink : Sink) : (s.save sink).2.mem = s.mem := by
  cases sink <;> rfl

/-- LOAD writes `err` or the stream (R205, R206). -/
theorem State.load_mem (s : State) (src : Source) : (s.load src).2.mem = s.mem := by
  rcases s.load_cases src with ⟨_, -, -, e⟩ | ⟨bs, -, -, e⟩ <;> rw [e]
  exact s.appendWords_mem _

/-- Of the accepted commands CLEAR and RESET empty memory, and no other touches it (R54, R195, R196). -/
theorem State.perform_mem_cases (s : State) (c : Command) :
    (s.perform c).2.mem = s.mem ∨ ((c = .clear ∨ c = .reset) ∧ (s.perform c).2.mem.mlen = 0) := by
  cases c with
  | clear => exact .inr ⟨.inl rfl, rfl⟩
  | reset => exact .inr ⟨.inr rfl, rfl⟩
  | emit i => exact .inl (s.appendWords_mem _)
  | save sink => exact .inl (s.save_mem sink)
  | load src => exact .inl (s.load_mem src)
  | execute => exact .inl rfl
  | peek => exact .inl rfl
  | getIp => exact .inl rfl
  | setTrace bit => exact .inl rfl
  | getError => exact .inl rfl
  | getStatus => exact .inl rfl

/-- A host command leaves memory alone, or it is a CLEAR or RESET that empties it (R54). -/
theorem hostCommand_mem_cases (c : Command) (s : State) :
    (hostCommand c s).2.mem = s.mem ∨
      ((c = .clear ∨ c = .reset) ∧ (hostCommand c s).2.mem.mlen = 0) := by
  rcases hostCommand_cases c s with ⟨-, e⟩ | ⟨-, -, e⟩ <;> rw [e]
  · exact .inl rfl
  · exact s.perform_mem_cases c

end Machine

namespace Claims

open Machine

/-- Settles O42: one inversion lemma for what a step does to memory, one for a host command. -/
theorem memoryNeverShrinks : Obligations.MemoryNeverShrinks := by
  unfold Obligations.MemoryNeverShrinks
  refine ⟨fun s t h => ?_, hostCommand_mem_cases⟩
  rcases step_mem_cases h with hmem | ⟨i, hdec, hop, hle⟩
  · exact ⟨by rw [hmem], fun hne => absurd (by rw [hmem]) hne⟩
  · exact ⟨hle, fun _ => ⟨i, hdec, hop⟩⟩

end Claims

end Sys2Proof
end

section
/-! PROOF. The stack and arithmetic instructions (40_stack_arith.md): the meaning of each as one equation, what
the shared two-operand and one-operand rules answer in each case, and the statements built on them. -/

namespace Sys2Proof

/-- In the default build the number of a mnemonic is its place in the document's table (R84). -/
theorem Params.opcodeNumber_default (m : Opcode) : Params.default.opcodeNumber m = m.index := by
  cases m <;> rfl

namespace Machine

variable {s : State} {a b : Nat} {rest : List Nat}

/-! ### One equation per instruction -/

theorem exec_push (v : Nat) (s : State) :
    exec (.push v) s = .next (if s.stackFull then s.raise .stackOverflow v
      else (s.withStack (v :: s.stack)).advance .push) := rfl

theorem exec_pop (s : State) :
    exec .pop s = .next (s.withTop fun _ rest => (s.withStack rest).advance .pop) := rfl

theorem exec_add (s : State) : exec .add s = .next (s.binop .add (addWord s.params.W)) := rfl

theorem exec_sub (s : State) : exec .sub s = .next (s.binop .sub (subWord s.params.W)) := rfl

theorem exec_mul (s : State) : exec .mul s = .next (s.binop .mul (mulWord s.params.W)) := rfl

theorem exec_div (s : State) : exec .div s = .next (s.divop .div divWord) := rfl

theorem exec_mod (s : State) : exec .mod s = .next (s.divop .mod modWord) := rfl

theorem exec_inc (s : State) :
    exec .inc s = .next (s.unop .inc fun a => addWord s.params.W a 1) := rfl

theorem exec_dec (s : State) :
    exec .dec s = .next (s.unop .dec fun a => subWord s.params.W a 1) := rfl

/-! ### The shared rules, case by case -/

/-- A new stack and the next instruction, with the whole frame: `next_ip = ip + 1 + arity` (R90). -/
theorem State.withStack_advance {m : Opcode} {n : Nat} (hn : 1 + m.arity = n) (st : List Nat) :
    (s.withStack st).advance m = { s with stack := st, ip := s.ip + n } := by
  rw [← hn, ← Nat.add_assoc]
  rfl

theorem State.binop_short (m : Opcode) (op : Nat → Nat → Nat) (h : s.depth < 2) :
    s.binop m op = s.raise .stackUnderflow s.depth := State.withTopTwo_short h

theorem State.binop_cons {m : Opcode} (op : Nat → Nat → Nat) (hm : m.arity = 0)
    (h : s.stack = b :: a :: rest) :
    s.binop m op = { s with stack := op a b :: rest, ip := s.ip + 1 } := by
  rw [State.binop, State.withTopTwo_cons h, State.withStack_advance (n := 1) (by rw [hm])]

theorem State.divop_short (m : Opcode) (op : Nat → Nat → Nat) (h : s.depth < 2) :
    s.divop m op = s.raise .stackUnderflow s.depth := State.withTopTwo_short h

theorem State.divop_zero (m : Opcode) (op : Nat → Nat → Nat) (h : s.stack = 0 :: a :: rest) :
    s.divop m op = s.raise .divideByZero a := by
  rw [State.divop, State.withTopTwo_cons h, if_pos rfl]

theorem State.divop_cons {m : Opcode} (op : Nat → Nat → Nat) (hm : m.arity = 0)
    (h : s.stack = b :: a :: rest) (hb : b ≠ 0) :
    s.divop m op = { s with stack := op a b :: rest, ip := s.ip + 1 } := by
  rw [State.divop, State.withTopTwo_cons h, if_neg hb,
    State.withStack_advance (n := 1) (by rw [hm])]

theorem State.unop_nil (m : Opcode) (op : Nat → Nat) (h : s.stack = []) :
    s.unop m op = s.raise .stackUnderflow 0 := State.withTop_nil h

theorem State.unop_cons {m : Opcode} (op : Nat → Nat) (hm : m.arity = 0)
    (h : s.stack = a :: rest) :
    s.unop m op = { s with stack := op a :: rest, ip := s.ip + 1 } := by
  rw [State.unop, State.withTop_cons h, State.withStack_advance (n := 1) (by rw [hm])]

/-! ### Word arithmetic -/

/-- The modulus of `subWord` as a power of the integers. -/
theorem subWord_eq (W a b : Nat) :
    subWord W a b = (((a : Int) - (b : Int)) % (2 : Int) ^ W).toNat := by
  rw [subWord, Nat.cast_pow, Nat.cast_ofNat]

/-- R117's difference is the remainder of the natural numbers. -/
theorem modWord_eq_mod (a b : Nat) : modWord a b = a % b := (Nat.mod_def a b).symm

/-- R121: no wrap in `a = b * (a DIV b) + (a MOD b)`. -/
theorem mul_divWord_add_modWord (a b : Nat) : b * divWord a b + modWord a b = a := by
  rw [modWord_eq_mod, divWord, Nat.div_add_mod]

theorem modWord_lt (a : Nat) (hb : b ≠ 0) : modWord a b < b := by
  rw [modWord_eq_mod]
  exact Nat.mod_lt a (Nat.pos_of_ne_zero hb)

end Machine

namespace Claims

open Machine

/-- Settles O1: `hasRoom` and `isFull` are the two values of the model's test `stackFull`. -/
theorem pushPlacesItsOperand : Obligations.PushPlacesItsOperand := by
  unfold Obligations.PushPlacesItsOperand
  intro v s
  refine ⟨rfl, Params.opcodeNumber_default .push, fun hroom => ?_, fun hfull => ?_⟩
  · have hf : s.stackFull = false := s.stackFull_eq_false_iff.2 hroom
    rw [exec_push, hf, if_neg Bool.false_ne_true, State.withStack_advance (n := 2) rfl]
  · have hf : s.stackFull = true := s.stackFull_iff.2 hfull
    rw [exec_push, if_pos hf]

/-- Settles O2: the two cases of a read of the top. -/
theorem popDiscardsTheTop : Obligations.PopDiscardsTheTop := by
  unfold Obligations.PopDiscardsTheTop
  intro s
  refine ⟨rfl, Params.opcodeNumber_default .pop, fun h => ?_, fun t rest h => ?_⟩
  · rw [exec_pop, State.withTop_nil h]
  · rw [exec_pop, State.withTop_cons h, State.withStack_advance (n := 1) rfl]

/-- Settles O3: the three operations share the rule `State.binop`. -/
theorem addSubMulModuloWordCount : Obligations.AddSubMulModuloWordCount := by
  unfold Obligations.AddSubMulModuloWordCount
  intro s
  refine ⟨⟨rfl, Params.opcodeNumber_default .add, rfl, Params.opcodeNumber_default .sub, rfl,
    Params.opcodeNumber_default .mul⟩, fun h => ?_, fun b a rest h => ⟨?_, ?_, ?_⟩⟩
  · simp only [exec_add, exec_sub, exec_mul, State.binop_short _ _ h, and_self]
  · rw [exec_add, State.binop_cons _ rfl h, addWord]
  · rw [exec_sub, State.binop_cons _ rfl h, subWord_eq]
  · rw [exec_mul, State.binop_cons _ rfl h, mulWord]

/-- Settles O4: both operations share the rule `State.divop`. -/
theorem divModUnsignedOrFault : Obligations.DivModUnsignedOrFault := by
  unfold Obligations.DivModUnsignedOrFault
  intro s
  refine ⟨⟨rfl, Params.opcodeNumber_default .div, rfl, Params.opcodeNumber_default .mod⟩,
    fun h => ?_, fun a rest h => ?_, fun b a rest h hb => ⟨?_, ?_⟩⟩
  · simp only [exec_div, exec_mod, State.divop_short _ _ h, and_self]
  · simp only [exec_div, exec_mod, State.divop_zero _ _ h, and_self]
  · rw [exec_div, State.divop_cons _ rfl h hb, divWord]
  · rw [exec_mod, State.divop_cons _ rfl h hb, modWord]

/-- Settles O5: `q` and `r` are what DIV and MOD push (O4), and R121's identity holds of them. -/
theorem divModIdentity : Obligations.DivModIdentity := by
  unfold Obligations.DivModIdentity
  intro s b a rest h
  obtain ⟨-, -, hzero, hpos⟩ := divModUnsignedOrFault s
  refine ⟨fun hb => ?_, fun hb => ?_⟩
  · subst hb
    exact hzero a rest h
  · obtain ⟨hdiv, hmod⟩ := hpos b a rest h hb
    exact ⟨divWord a b, modWord a b, hdiv, hmod, (mul_divWord_add_modWord a b).symm,
      modWord_lt a hb⟩

/-- Settles O6: both operations share the rule `State.unop`. -/
theorem incDecModuloWordCount : Obligations.IncDecModuloWordCount := by
  unfold Obligations.IncDecModuloWordCount
  intro s
  refine ⟨⟨rfl, Params.opcodeNumber_default .inc, rfl, Params.opcodeNumber_default .dec⟩,
    fun h => ?_, fun a rest h => ⟨?_, ?_⟩⟩
  · simp only [exec_inc, exec_dec, State.unop_nil _ _ h, and_self]
  · rw [exec_inc, State.unop_cons _ rfl h, addWord]
  · rw [exec_dec, State.unop_cons _ rfl h, subWord_eq, Nat.cast_one]

end Claims

end Sys2Proof
end

section
/-! PROOF. Control transfer (41_control.md): the meaning of each jump and of HALT as one equation, what the
shared jump rules answer in each case, what a stopped engine does, and the statements built on them. -/

namespace Sys2Proof

namespace Machine

variable {s : State} {m : Opcode} {cond : Nat → Nat → Bool} {t cmp addr : Nat} {rest : List Nat}

/-! ### One equation per instruction -/

theorem exec_jge (cmp addr : Nat) (s : State) :
    exec (.jge cmp addr) s = .next (s.jumpIf .jge condGe cmp addr) := rfl

theorem exec_jgt (cmp addr : Nat) (s : State) :
    exec (.jgt cmp addr) s = .next (s.jumpIf .jgt condGt cmp addr) := rfl

theorem exec_jle (cmp addr : Nat) (s : State) :
    exec (.jle cmp addr) s = .next (s.jumpIf .jle condLe cmp addr) := rfl

theorem exec_jlt (cmp addr : Nat) (s : State) :
    exec (.jlt cmp addr) s = .next (s.jumpIf .jlt condLt cmp addr) := rfl

theorem exec_jeq (cmp addr : Nat) (s : State) :
    exec (.jeq cmp addr) s = .next (s.jumpIf .jeq condEq cmp addr) := rfl

theorem exec_jmp (addr : Nat) (s : State) : exec (.jmp addr) s = .next (s.takeJump addr) := rfl

theorem exec_halt (s : State) : exec .halt s = .next ((s.advance .halt).endRun .halted) := rfl

/-! ### The five comparisons -/

theorem condGe_iff (t cmp : Nat) : condGe t cmp = true ↔ t ≥ cmp := decide_eq_true_iff

theorem condGt_iff (t cmp : Nat) : condGt t cmp = true ↔ t > cmp := decide_eq_true_iff

theorem condLe_iff (t cmp : Nat) : condLe t cmp = true ↔ t ≤ cmp := decide_eq_true_iff

theorem condLt_iff (t cmp : Nat) : condLt t cmp = true ↔ t < cmp := decide_eq_true_iff

theorem condEq_iff (t cmp : Nat) : condEq t cmp = true ↔ t = cmp := decide_eq_true_iff

/-! ### The shared jump rules, case by case -/

/-- R137: `addr = slen` is still inside. -/
theorem State.takeJump_within (h : addr ≤ s.slen) : s.takeJump addr = { s with ip := addr } :=
  if_neg (Nat.not_lt.2 h)

theorem State.takeJump_beyond (h : s.slen < addr) :
    s.takeJump addr = s.raise .jumpOutOfRange addr := if_pos h

theorem State.jumpIf_nil (m : Opcode) (cond : Nat → Nat → Bool) (cmp addr : Nat)
    (h : s.stack = []) : s.jumpIf m cond cmp addr = s.raise .stackUnderflow 0 :=
  State.withTop_nil h

theorem State.jumpIf_taken (m : Opcode) (addr : Nat) (h : s.stack = t :: rest)
    (hc : cond t cmp = true) : s.jumpIf m cond cmp addr = s.takeJump addr := by
  rw [State.jumpIf, State.withTop_cons h, if_pos hc]

/-- A jump that is not taken does not look at `addr` (R130). -/
theorem State.jumpIf_notTaken (addr : Nat) (hm : m.arity = 2) (h : s.stack = t :: rest)
    (hc : ¬cond t cmp = true) : s.jumpIf m cond cmp addr = { s with ip := s.ip + 3 } := by
  rw [State.jumpIf, State.withTop_cons h, if_neg hc, State.advance, hm]

/-! ### Stopped engines -/

/-- An engine that is not RUNNING executes nothing (R32). -/
theorem step_of_not_running (h : s.run ≠ .running) : step s = .next s := by
  rcases step_cases s with ⟨-, e⟩ | ⟨hr, -⟩ | ⟨hr, -⟩
  · exact e
  · exact absurd hr h
  · exact absurd hr h

/-- The response of an EXECUTE that ended without a fault is the reason it ended with (R193). -/
theorem State.executeResponse_endRun (s : State) (r : StopReason) :
    (s.endRun r).executeResponse = some (.stopped r) := rfl

end Machine

namespace Claims

open Machine

/-! ### The table of conditional jumps -/

/-- What R130 says of one row of the table `conditionalJumps`: its mnemonic and default number, and
that the model runs it by the shared rule `State.jumpIf` with a test that decides `rel`. -/
structure FollowsJumpRule (mk : Nat → Nat → Instr) (m : Opcode) (n : Nat) (rel : Nat → Nat → Prop)
    (cond : Nat → Nat → Bool) : Prop where
  encode_eq : ∀ (p : Params) (cmp addr : Nat),
    encode p (mk cmp addr) = [p.opcodeNumber m, cmp, addr]
  index_eq : m.index = n
  arity_eq : m.arity = 2
  exec_eq : ∀ (cmp addr : Nat) (s : State),
    exec (mk cmp addr) s = .next (s.jumpIf m cond cmp addr)
  cond_iff : ∀ t cmp : Nat, cond t cmp = true ↔ rel t cmp

theorem followsJumpRule_of_mem_conditionalJumps {mk : Nat → Nat → Instr} {m : Opcode} {n : Nat}
    {rel : Nat → Nat → Prop} (h : (mk, m, n, rel) ∈ conditionalJumps) :
    ∃ cond, FollowsJumpRule mk m n rel cond := by
  simp only [conditionalJumps, List.mem_cons, List.not_mem_nil, or_false, Prod.mk.injEq] at h
  rcases h with ⟨rfl, rfl, rfl, rfl⟩ | ⟨rfl, rfl, rfl, rfl⟩ | ⟨rfl, rfl, rfl, rfl⟩ |
    ⟨rfl, rfl, rfl, rfl⟩ | ⟨rfl, rfl, rfl, rfl⟩
  · exact ⟨condGe, fun _ _ _ => rfl, rfl, rfl, exec_jge, condGe_iff⟩
  · exact ⟨condGt, fun _ _ _ => rfl, rfl, rfl, exec_jgt, condGt_iff⟩
  · exact ⟨condLe, fun _ _ _ => rfl, rfl, rfl, exec_jle, condLe_iff⟩
  · exact ⟨condLt, fun _ _ _ => rfl, rfl, rfl, exec_jlt, condLt_iff⟩
  · exact ⟨condEq, fun _ _ _ => rfl, rfl, rfl, exec_jeq, condEq_iff⟩

/-- Settles O7: every row of the table follows the shared rule, whose cases are the statement's. -/
theorem conditionalJumpsPeekAndCompare : Obligations.ConditionalJumpsPeekAndCompare := by
  unfold Obligations.ConditionalJumpsPeekAndCompare
  intro mk m n rel hmem cmp addr s
  obtain ⟨cond, hrow⟩ := followsJumpRule_of_mem_conditionalJumps hmem
  rw [hrow.exec_eq]
  refine ⟨hrow.encode_eq s.params cmp addr, (Params.opcodeNumber_default m).trans hrow.index_eq,
    fun h => ?_, fun t rest h => ⟨fun hrel => ?_, fun hrel hin => ?_, fun hrel hout => ?_⟩⟩
  · rw [State.jumpIf_nil m cond cmp addr h]
  · rw [State.jumpIf_notTaken addr hrow.arity_eq h (mt (hrow.cond_iff t cmp).1 hrel)]
  · rw [State.jumpIf_taken m addr h ((hrow.cond_iff t cmp).2 hrel), State.takeJump_within hin]
  · rw [State.jumpIf_taken m addr h ((hrow.cond_iff t cmp).2 hrel), State.takeJump_beyond hout]

/-- Settles O8: JMP is the taken jump alone. -/
theorem jmpSetsIp : Obligations.JmpSetsIp := by
  unfold Obligations.JmpSetsIp
  intro addr s
  refine ⟨rfl, Params.opcodeNumber_default .jmp, fun hin => ?_, fun hout => ?_⟩
  · rw [exec_jmp, State.takeJump_within hin]
  · rw [exec_jmp, State.takeJump_beyond hout]

/-- Settles O10: HALT leaves an IDLE engine, and a step of that changes nothing (R32). -/
theorem haltEndsTheRunPastItself : Obligations.HaltEndsTheRunPastItself := by
  unfold Obligations.HaltEndsTheRunPastItself
  intro s
  have hidle : ((s.advance .halt).endRun .halted).run ≠ .running := by simp
  exact ⟨rfl, Params.opcodeNumber_default .halt, _, exec_halt s, rfl, step_of_not_running hidle,
    State.executeResponse_endRun _ .halted⟩

end Claims

end Sys2Proof
end

section
/-! PROOF. Input and output (42_io.md): the meaning of OUT, DBG and IN as one equation each, what a line read
and IN answer in each case, the packing rule of R150 with its inverse, and the statements built on them. -/

namespace Sys2Proof

namespace Machine

variable {s : State} {size addr : Nat}

/-! ### One equation per instruction -/

theorem exec_out (s : State) :
    exec .out s =
      .next (s.withTop fun t _ => (s.emit ((printedChars s.params.W t).map .char)).advance .out) :=
  rfl

theorem exec_dbg (s : State) :
    exec .dbg s = .next (s.withTop fun t _ => (s.emit [.dbg t]).advance .dbg) := rfl

theorem exec_inLine (size addr : Nat) (s : State) :
    exec (.inLine size addr) s = execIn size addr s := rfl

/-! ### OUT and DBG -/

/-- New events and the next instruction, with the whole frame. -/
theorem State.emit_advance {m : Opcode} (hm : m.arity = 0) (es : List Event) :
    (s.emit es).advance m = { s with output := s.output ++ es, ip := s.ip + 1 } := by
  rw [State.advance, hm]
  rfl

/-- R152 with R10's formula for the bytes of a word. -/
theorem printedChars_eq (W w : Nat) :
    printedChars W w =
      ((List.range (W / 8)).map fun k => BitVec.ofNat 8 (w / 2 ^ (W - 8 - 8 * k))).filter (· ≠ 0) :=
  rfl

/-! ### The line read and IN, case by case -/

theorem State.readLine_of_lineRead {line : List Byte} {inp : InputSource}
    (h : Claims.lineRead s line inp) : s.readLine = some (line, { s with input := inp }) := by
  rcases h with ⟨hlines, hended⟩ | ⟨hlines, hended, hpolicy, rfl, rfl⟩
  · simp only [State.readLine, hlines, ← hended]
  · simp only [State.readLine, hlines, hended, hpolicy]

theorem State.readLine_of_lineAwaited (h : Claims.lineAwaited s) : s.readLine = none := by
  obtain ⟨hlines, hnot⟩ := h
  rcases s.readLine_cases with ⟨line, rest, hcons, -⟩ | ⟨-, hended, hpolicy, -⟩ | ⟨-, -, e⟩
  · rw [hlines] at hcons
    cases hcons
  · exact absurd ⟨hended, hpolicy⟩ hnot
  · exact e

/-- The capacity check comes before the read (R153). -/
theorem execIn_overflow (hc : s.params.memCap ≤ addr + size) :
    execIn size addr s = .next (s.raise .memoryOverflow addr) := by
  rw [execIn, if_pos hc]

theorem execIn_wait (hc : addr + size < s.params.memCap) (hr : s.readLine = none) :
    execIn size addr s = .next s.wait := by
  rw [execIn, if_neg (Nat.not_le.2 hc), hr]

/-- The state IN completes in: the input source is at `inp`, the line is stored, the wait is over. -/
def State.lineDone (s : State) (size addr : Nat) (line : List Byte) (inp : InputSource) : State :=
  { s with
    mem := s.mem.storeLine s.params.W size addr line, input := inp, ip := s.ip + 3,
    waiting := false }

theorem execIn_line {line : List Byte} {inp : InputSource} (hc : addr + size < s.params.memCap)
    (hr : s.readLine = some (line, { s with input := inp })) :
    execIn size addr s = .next (s.lineDone size addr line inp) := by
  rw [execIn, if_neg (Nat.not_le.2 hc), hr]
  rfl

/-- A canonical memory after IN stored a line is what `lineStored` says (R153). -/
theorem Memory.storeLine_lineStored {m : Memory} (h : m.wf) (W size addr : Nat)
    (line : List Byte) :
    Claims.lineStored m (m.storeLine W size addr line) size addr (pack W line) :=
  ⟨Memory.storeLine_wf h W size addr line, Memory.storeLine_mlen m W size addr line,
    Memory.read_storeLine h W size addr line⟩

/-! ### Packing -/

/-- `n` blocks of `B` entries each are the entries in one sequence. -/
theorem flatMap_range_blocks {α : Type} (f : Nat → α) (n B : Nat) :
    ((List.range n).flatMap fun j => (List.range B).map fun k => f (j * B + k)) =
      (List.range (n * B)).map f := by
  induction n with
  | zero => simp
  | succ n ih =>
    rw [List.range_succ, List.flatMap_append, ih, Nat.succ_mul, List.range_add]
    simp

/-- Reading a list past its end gives it padded with the default. -/
theorem map_getD_range {α : Type} (l : List α) (d : α) {n : Nat} (hn : l.length ≤ n) :
    ((List.range n).map fun i => l.getD i d) = l ++ List.replicate (n - l.length) d := by
  refine List.ext_getElem (by simp; omega) fun i h₁ h₂ => ?_
  by_cases hi : i < l.length
  · simp [hi]
  · simp [hi, List.getElem_append_right (Nat.le_of_not_lt hi)]

theorem pack_length (W : Nat) (cs : List Byte) :
    (pack W cs).length = packedLength W cs.length := by
  rw [pack, List.length_map, List.length_range]

theorem pack_getD {W j : Nat} {cs : List Byte} (hj : j < (pack W cs).length) :
    (pack W cs).getD j 0 = joinBytes W (cs.drop (j * (W / 8))) := by
  rw [List.getD_eq_getElem _ _ hj]
  simp [pack]

/-- One word of the packing as a sum over the whole character sequence (R150). -/
theorem joinBytes_drop (W i : Nat) (cs : List Byte) :
    joinBytes W (cs.drop i) =
      ∑ k ∈ Finset.range (W / 8), (cs.getD (i + k) 0).toNat * 2 ^ (W - 8 - 8 * k) := by
  simp only [joinBytes, List.getD_eq_getElem?_getD, List.getElem?_drop]
  rfl

/-- The packed words hold at least the characters: `L <= ceil(L / B) * B`. -/
theorem length_le_packedLength_mul {W : Nat} (hW : 8 ≤ W) (L : Nat) :
    L ≤ packedLength W L * (W / 8) := by
  have hB : 0 < W / 8 := Nat.div_pos hW (by norm_num)
  have hlt := Nat.lt_div_mul_add (a := L + W / 8 - 1) hB
  rw [packedLength]
  omega

/-- Unpacking inverts packing, up to the zero bytes of the padding (R150, R151). -/
theorem flatMap_unpack_pack {B : Nat} (hB : 8 ≤ 8 * B) (cs : List Byte) :
    (pack (8 * B) cs).flatMap (unpack (8 * B)) =
      cs ++ List.replicate ((pack (8 * B) cs).length * B - cs.length) 0 := by
  have hdiv : 8 * B / 8 = B := Nat.mul_div_cancel_left B (by norm_num)
  have hlen := length_le_packedLength_mul hB cs.length
  rw [hdiv] at hlen
  calc (pack (8 * B) cs).flatMap (unpack (8 * B))
      = (List.range (packedLength (8 * B) cs.length)).flatMap fun j =>
          (List.range B).map fun k => cs.getD (j * B + k) 0 := by
        simp only [pack, List.flatMap_map, unpack_joinBytes, hdiv, List.getD_eq_getElem?_getD,
          List.getElem?_drop]
    _ = (List.range (packedLength (8 * B) cs.length * B)).map fun i => cs.getD i 0 :=
        flatMap_range_blocks (fun i => cs.getD i 0) _ B
    _ = cs ++ List.replicate (packedLength (8 * B) cs.length * B - cs.length) 0 :=
        map_getD_range cs 0 hlen
    _ = _ := by rw [pack_length]

end Machine

namespace Claims

open Machine

/-- Settles O11: OUT peeks the top and emits its `printedChars`. -/
theorem outEmitsNonZeroBytes : Obligations.OutEmitsNonZeroBytes := by
  unfold Obligations.OutEmitsNonZeroBytes
  intro s
  refine ⟨rfl, Params.opcodeNumber_default .out, fun h => ?_, fun t rest h => ?_⟩
  · rw [exec_out, State.withTop_nil h]
  · rw [exec_out, State.withTop_cons h, State.emit_advance rfl, printedChars_eq]

/-- Settles O12: DBG peeks the top and emits it whole. -/
theorem dbgEmitsTheTop : Obligations.DbgEmitsTheTop := by
  unfold Obligations.DbgEmitsTheTop
  intro s
  refine ⟨rfl, Params.opcodeNumber_default .dbg, fun h => ?_, fun t rest h => ?_⟩
  · rw [exec_dbg, State.withTop_nil h]
  · rw [exec_dbg, State.withTop_cons h, State.emit_advance rfl]

/-- Settles O13: the three cases of IN, with `Memory.storeLine` read at every address. -/
theorem inStoresOneLine : Obligations.InStoresOneLine := by
  unfold Obligations.InStoresOneLine
  intro size addr s
  rw [exec_inLine]
  refine ⟨rfl, Params.opcodeNumber_default .inLine, execIn_overflow, fun hc hawait => ?_,
    fun line inp hc hwf hread => ?_⟩
  · exact ⟨s.wait, execIn_wait hc (State.readLine_of_lineAwaited hawait), rfl⟩
  · exact ⟨s.lineDone size addr line inp, execIn_line hc (State.readLine_of_lineRead hread), rfl,
      Memory.storeLine_lineStored hwf s.params.W size addr line⟩

/-- Settles O52: the words of `pack` one by one, and `flatMap_unpack_pack` for the inverse. -/
theorem packingRule : Obligations.PackingRule := by
  unfold Obligations.PackingRule
  intro W cs hmul hW
  refine ⟨?_, fun j hj => ?_, ?_⟩
  · have hB : 1 ≤ W / 8 := Nat.div_pos hW (by norm_num)
    rw [pack_length, packedLength, Nat.add_sub_assoc hB]
  · rw [pack_getD hj, joinBytes_drop]
  · obtain ⟨B, rfl⟩ := Nat.dvd_of_mod_eq_zero hmul
    rw [flatMap_unpack_pack hW, Nat.mul_div_cancel_left B (by norm_num)]

end Claims

end Sys2Proof
end

section
/-! PROOF. The memory instructions (43_memory_ops.md): the meaning of each as one equation, what the shared
write of STORE and SSTORE and what LOAD and SLOAD answer in each case, and the statements built on them. -/

namespace Sys2Proof

namespace Machine

variable {s : State} {m : Opcode} {addr : Nat} {rest : List Nat}

/-! ### One equation per instruction -/

theorem exec_store (addr : Nat) (s : State) :
    exec (.store addr) s = .next (s.withTop fun a rest => s.storeWord .store addr a rest) := rfl

theorem exec_load (addr : Nat) (s : State) : exec (.load addr) s = execLoad addr s := rfl

theorem exec_sstore (s : State) :
    exec .sstore s =
      .next (s.withTopTwo fun addr value rest => s.storeWord .sstore addr value rest) := rfl

theorem exec_sload (s : State) : exec .sload s = execSload s := rfl

/-! ### The shared write, case by case -/

/-- The fault leaves the stack, with the value still on it (R247). -/
theorem State.storeWord_beyond (m : Opcode) (v : Nat) (rest : List Nat)
    (hc : s.params.memCap ≤ addr) :
    s.storeWord m addr v rest = s.raise .memoryOverflow addr := by
  rw [State.storeWord, State.memWrite_eq_none v hc]

/-- A write inside MEM_CAP, with the whole frame. -/
theorem State.storeWord_within {n : Nat} (hn : 1 + m.arity = n) (v : Nat) (rest : List Nat)
    (hc : addr < s.params.memCap) :
    s.storeWord m addr v rest =
      { s with stack := rest, mem := s.mem.write addr v, ip := s.ip + n } := by
  rw [State.storeWord, State.memWrite_eq_some v hc]
  exact State.withStack_advance hn rest

/-- A canonical memory after one write is what `writtenAt` says (R53). -/
theorem Memory.write_writtenAt {m : Memory} (h : m.wf) (a v : Nat) :
    Claims.writtenAt m (m.write a v) a v :=
  ⟨Memory.write_wf h a v, Memory.write_mlen m a v, Memory.read_write h a v⟩

/-! ### LOAD and SLOAD, case by case -/

/-- An allocated cell holds a word, which is 0 where nothing is listed (R52, R53). -/
theorem Memory.read_allocated {m : Memory} {a : Nat} (h : a < m.mlen) :
    ∃ v, m.read a = some v ∧ ((∀ w, (a, w) ∉ m.cells) → v = 0) :=
  ⟨readCell a m.cells, Memory.read_eq_some h, readCell_eq_zero_of_not_listed⟩

/-- The read comes before the push, so a full stack does not matter here (R234). -/
theorem execLoad_unallocated (h : s.mem.mlen ≤ addr) :
    execLoad addr s = .next (s.raise .unallocatedRead addr) := by
  rw [execLoad, Memory.read_eq_none h]

theorem execLoad_full (h : addr < s.mem.mlen) (hfull : s.stackFull = true) :
    execLoad addr s = .next (s.raise .stackOverflow addr) := by
  simp only [execLoad, Memory.read_eq_some h, if_pos hfull]

theorem execLoad_room {v : Nat} (h : s.mem.read addr = some v) (hroom : s.stackFull = false) :
    execLoad addr s = .next { s with stack := v :: s.stack, ip := s.ip + 2 } := by
  simp only [execLoad, h, hroom, Bool.false_eq_true, if_false,
    State.withStack_advance (m := .load) (n := 2) rfl]

theorem execSload_nil (h : s.stack = []) : execSload s = .next (s.raise .stackUnderflow 0) := by
  rw [execSload, State.withTop_nil h]

/-- The address stays on the stack (R173). -/
theorem execSload_unallocated (hs : s.stack = addr :: rest) (h : s.mem.mlen ≤ addr) :
    execSload s = .next (s.raise .unallocatedRead addr) := by
  rw [execSload, State.withTop_cons hs, Memory.read_eq_none h]

theorem execSload_allocated {v : Nat} (hs : s.stack = addr :: rest)
    (h : s.mem.read addr = some v) :
    execSload s = .next { s with stack := v :: rest, ip := s.ip + 1 } := by
  simp only [execSload, State.withTop_cons hs, h,
    State.withStack_advance (m := .sload) (n := 1) rfl]

end Machine

namespace Claims

open Machine

/-- Settles O15: the top is read, then the shared write `State.storeWord` faults or completes. -/
theorem storeWritesAndPops : Obligations.StoreWritesAndPops := by
  unfold Obligations.StoreWritesAndPops
  intro addr s
  rw [exec_store]
  refine ⟨rfl, Params.opcodeNumber_default .store, fun h => ?_, fun a rest h =>
    ⟨fun hc => ?_, fun hc hwf => ⟨s.mem.write addr a, ?_, Memory.write_writtenAt hwf addr a⟩⟩⟩
  · rw [State.withTop_nil h]
  · rw [State.withTop_cons h, State.storeWord_beyond .store a rest hc]
  · rw [State.withTop_cons h, State.storeWord_within (n := 2) rfl a rest hc]

/-- Settles O16: the three cases of LOAD, with `hasRoom` and `isFull` the values of `stackFull`. -/
theorem loadPushesTheCell : Obligations.LoadPushesTheCell := by
  unfold Obligations.LoadPushesTheCell
  intro addr s
  rw [exec_load]
  refine ⟨rfl, Params.opcodeNumber_default .load, execLoad_unallocated,
    fun h hfull => execLoad_full h (s.stackFull_iff.2 hfull), fun h hroom => ?_⟩
  obtain ⟨v, hread, hzero⟩ := Memory.read_allocated h
  exact ⟨v, hread, hzero, execLoad_room hread (s.stackFull_eq_false_iff.2 hroom)⟩

/-- Settles O17: as O15, with the address read from the top and the value under it. -/
theorem sstoreWritesAtTheTop : Obligations.SstoreWritesAtTheTop := by
  unfold Obligations.SstoreWritesAtTheTop
  intro s
  rw [exec_sstore]
  refine ⟨rfl, Params.opcodeNumber_default .sstore, fun h => ?_, fun addr value rest h =>
    ⟨fun hc => ?_, fun hc hwf =>
      ⟨s.mem.write addr value, ?_, Memory.write_writtenAt hwf addr value⟩⟩⟩
  · rw [State.withTopTwo_short h]
  · rw [State.withTopTwo_cons h, State.storeWord_beyond .sstore value rest hc]
  · rw [State.withTopTwo_cons h, State.storeWord_within (n := 1) rfl value rest hc]

/-- Settles O18: the three cases of SLOAD. -/
theorem sloadReplacesTheAddress : Obligations.SloadReplacesTheAddress := by
  unfold Obligations.SloadReplacesTheAddress
  intro s
  rw [exec_sload]
  refine ⟨rfl, Params.opcodeNumber_default .sload, execSload_nil, fun addr rest hs =>
    ⟨execSload_unallocated hs, fun h => ?_⟩⟩
  obtain ⟨v, hread, hzero⟩ := Memory.read_allocated h
  exact ⟨v, hread, hzero, execSload_allocated hs hread⟩

end Claims

end Sys2Proof
end

section
/-! PROOF. The host commands (44_host_interface.md): which are accepted in which run state, which of them write
`err`, the appending of words, the persisted format of SAVE and LOAD, and the statements built on them. -/

namespace Sys2Proof

/-- An encoded instruction has the length its opcode tells (R86, R87). -/
theorem encode_length (p : Params) (i : Instr) : (encode p i).length = 1 + i.opcode.arity := by
  have harity : i.operands.length = i.opcode.arity := by cases i <;> rfl
  rw [encode, List.length_cons, harity, Nat.add_comm]

namespace Machine

variable {s : State} {c : Command} {p : Params} {bs : List Byte} {ws : List Nat}

/-! ### Acceptance -/

@[simp] theorem Command.accepted_running (c : Command) : c.accepted .running = false := by
  cases c <;> rfl

@[simp] theorem Command.accepted_idle (c : Command) : c.accepted .idle = true := by
  cases c <;> rfl

/-- A command accepted by a FAULTED engine is accepted in both states that accept any (R192). -/
theorem Command.accepted_of_ne_running (hc : c.accepted .faulted = true) {r : RunState}
    (hr : r ≠ .running) : c.accepted r = true := by
  cases r with
  | idle => exact c.accepted_idle
  | running => exact absurd rfl hr
  | faulted => exact hc

/-- Only EMIT carries operands, and a FAULTED engine does not accept it (R190, R192). -/
theorem Command.wellFormed_of_accepted_faulted (hc : c.accepted .faulted = true) :
    c.wellFormed p = true := by
  cases c with
  | emit i => exact absurd hc Bool.false_ne_true
  | _ => rfl

theorem hostCommand_refused (hc : c.accepted s.run = false) : hostCommand c s = (.refused, s) := by
  rw [hostCommand, hc, Bool.false_and, if_neg Bool.false_ne_true]

theorem hostCommand_accepted (hc : c.accepted s.run = true) (hw : c.wellFormed s.params = true) :
    hostCommand c s = s.perform c := by
  rw [hostCommand, hc, hw, Bool.and_self, if_pos rfl]

/-- In IDLE every command has its effect (R191). -/
theorem hostCommand_idle (hs : s.run = .idle) (hw : c.wellFormed s.params = true) :
    hostCommand c s = s.perform c :=
  hostCommand_accepted (hs ▸ c.accepted_idle) hw

/-- The commands that a FAULTED engine accepts have their effect in every engine that is not RUNNING
(R191). -/
theorem hostCommand_ne_running (hs : s.run ≠ .running) (hc : c.accepted .faulted = true) :
    hostCommand c s = s.perform c :=
  hostCommand_accepted (Command.accepted_of_ne_running hc hs)
    (Command.wellFormed_of_accepted_faulted hc)

/-! ### Appending words -/

theorem State.appendWords_fits (h : s.slen + ws.length ≤ s.params.streamCap) :
    s.appendWords ws = (.ok, { s with stream := s.stream ++ ws }) :=
  if_neg (Nat.not_lt.2 h)

theorem State.appendWords_full (h : s.params.streamCap < s.slen + ws.length) :
    s.appendWords ws = (.full, s) :=
  if_pos h

/-! ### Responses -/

theorem State.appendWords_ne_refused (s : State) (ws : List Nat) :
    (s.appendWords ws).1 ≠ .refused := by
  rcases s.appendWords_cases ws with ⟨-, e⟩ | ⟨-, e⟩ <;> simp [e]

theorem State.save_ne_refused (s : State) (sink : Sink) : (s.save sink).1 ≠ .refused := by
  cases sink <;> simp [State.save]

theorem State.load_ne_refused (s : State) (src : Source) : (s.load src).1 ≠ .refused := by
  rcases s.load_cases src with ⟨_, -, -, e⟩ | ⟨bs, -, -, e⟩ <;> rw [e]
  · simp
  · exact s.appendWords_ne_refused _

/-- `refused` is the answer to a command that is not accepted, and to no other (R191). -/
theorem State.perform_ne_refused (s : State) (c : Command) : (s.perform c).1 ≠ .refused := by
  cases c with
  | emit i => exact s.appendWords_ne_refused _
  | save sink => exact s.save_ne_refused sink
  | load src => exact s.load_ne_refused src
  | _ => simp [State.perform]

/-! ### Who writes `err` -/

/-- The values that a failing SAVE or LOAD leaves in `err` (R204, R206). -/
def fileErrors : List ErrorState := [.fileOpen, .versionMismatch, .wordSizeMismatch]

theorem mem_fileErrors {e : ErrorState} (h₀ : e ≠ .noError) (h₄ : e ≠ .invalidInstruction) :
    e ∈ fileErrors := by
  cases e with
  | noError => exact absurd rfl h₀
  | invalidInstruction => exact absurd rfl h₄
  | _ => simp [fileErrors]

theorem State.appendWords_err (s : State) (ws : List Nat) : (s.appendWords ws).2.err = s.err := by
  rcases s.appendWords_cases ws with ⟨-, e⟩ | ⟨-, e⟩ <;> rw [e]

theorem State.save_err_cases (s : State) (sink : Sink) :
    (s.save sink).2.err = s.err ∨
      ((s.save sink).1 = .fail ∧ (s.save sink).2.err ∈ fileErrors) := by
  cases sink with
  | ok => exact .inl rfl
  | openFailed => exact .inr ⟨rfl, List.mem_cons_self⟩

theorem State.load_err_cases (s : State) (src : Source) :
    (s.load src).2.err = s.err ∨
      ((s.load src).1 = .fail ∧ (s.load src).2.err ∈ fileErrors) := by
  rcases s.load_cases src with ⟨_, h₀, h₄, e⟩ | ⟨bs, -, -, e⟩ <;> rw [e]
  · exact .inr ⟨rfl, mem_fileErrors h₀ h₄⟩
  · exact .inl (s.appendWords_err _)

/-- An accepted command leaves `err` alone, clears it, or fails at a file and says why (R210). -/
theorem State.perform_err_cases (s : State) (c : Command) :
    (s.perform c).2.err = s.err ∨
    ((c = .clear ∨ c = .reset) ∧ (s.perform c).2.err = .noError) ∨
    (((∃ k, c = .save k) ∨ ∃ src, c = .load src) ∧ (s.perform c).1 = .fail ∧
      (s.perform c).2.err ∈ fileErrors) := by
  cases c with
  | emit i => exact .inl (s.appendWords_err _)
  | clear => exact .inr (.inl ⟨.inl rfl, rfl⟩)
  | reset => exact .inr (.inl ⟨.inr rfl, rfl⟩)
  | save sink => exact (s.save_err_cases sink).imp_right fun h => .inr ⟨.inl ⟨sink, rfl⟩, h⟩
  | load src => exact (s.load_err_cases src).imp_right fun h => .inr ⟨.inr ⟨src, rfl⟩, h⟩
  | _ => exact .inl rfl

/-! ### The persisted format: what SAVE writes -/

/-- The body of a saved stream as one sequence of bytes: byte `i % B` of word `i / B` (R203). -/
theorem flatMap_unpack_eq_map {W : Nat} (hB : 0 < W / 8) (ws : List Nat) :
    ws.flatMap (unpack W) =
      (List.range (ws.length * (W / 8))).map fun i =>
        byteOf W (ws.getD (i / (W / 8)) 0) (i % (W / 8)) := by
  rw [← flatMap_range_blocks]
  calc ws.flatMap (unpack W)
      = ((List.range ws.length).map fun j => ws.getD j 0).flatMap (unpack W) := by
        rw [map_getD_range ws 0 le_rfl, Nat.sub_self, List.replicate_zero, List.append_nil]
    _ = _ := by
        rw [List.flatMap_map]
        refine List.flatMap_congr fun j _ => List.map_congr_left fun k hk => ?_
        have hk : k < W / 8 := List.mem_range.1 hk
        rw [Nat.mul_comm, Nat.mul_add_div hB, Nat.div_eq_of_lt hk, Nat.add_zero,
          Nat.mul_add_mod, Nat.mod_eq_of_lt hk]

theorem fileHeader_length (p : Params) : (fileHeader p).length = 18 := by
  simp [fileHeader]

theorem fileBytes_length (hB : 0 < p.W / 8) (ws : List Nat) :
    (fileBytes p ws).length = 18 + p.W / 8 * ws.length := by
  rw [fileBytes, List.length_append, fileHeader_length, flatMap_unpack_eq_map hB, List.length_map,
    List.length_range, Nat.mul_comm]

theorem fileBytes_version (p : Params) (ws : List Nat) :
    (fileBytes p ws)[0]? = some p.bcVersion := rfl

/-- One byte holds the word size of every legal build, since `W <= 2040` (R7, R207). -/
theorem fileBytes_wordSize (hW : p.W ≤ 2040) (ws : List Nat) :
    ((fileBytes p ws)[1]?).map BitVec.toNat = some (p.W / 8) := by
  show some (BitVec.ofNat 8 p.B).toNat = some (p.W / 8)
  rw [BitVec.toNat_ofNat, Params.B, Nat.mod_eq_of_lt (by omega)]

theorem fileBytes_reserved (p : Params) (ws : List Nat) {k : Nat} (h₂ : 2 ≤ k) (h₁₈ : k < 18) :
    (fileBytes p ws)[k]? = some 0 := by
  rw [fileBytes, List.getElem?_append_left (by rwa [fileHeader_length]), fileHeader,
    List.getElem?_append_right h₂, List.getElem?_replicate_of_lt]
  show k - 2 < 16
  omega

/-- Byte `k` of word `i` of the body (R203, R207). -/
theorem fileBytes_body {ws : List Nat} {i k : Nat} (hi : i < ws.length) (hk : k < p.W / 8) :
    (fileBytes p ws)[18 + p.W / 8 * i + k]? = some (byteOf p.W (ws.getD i 0) k) := by
  have hB : 0 < p.W / 8 := Nat.zero_lt_of_lt hk
  have hlt : p.W / 8 * i + k < ws.length * (p.W / 8) := by
    calc p.W / 8 * i + k < p.W / 8 * (i + 1) := by rw [Nat.mul_succ]; omega
      _ ≤ p.W / 8 * ws.length := Nat.mul_le_mul_left _ hi
      _ = ws.length * (p.W / 8) := Nat.mul_comm _ _
  rw [fileBytes, Nat.add_assoc, List.getElem?_append_right (by rw [fileHeader_length]; omega),
    fileHeader_length, Nat.add_sub_cancel_left, flatMap_unpack_eq_map hB, List.getElem?_map,
    List.getElem?_range hlt, Option.map_some, Nat.mul_add_div hB, Nat.div_eq_of_lt hk,
    Nat.add_zero, Nat.mul_add_mod, Nat.mod_eq_of_lt hk]

/-! ### The persisted format: what LOAD checks and reads -/

theorem headerError_version (h : bs[0]? ≠ some p.bcVersion) :
    headerError p bs = some .versionMismatch := by
  rcases bs with _ | ⟨v, rest⟩
  · rfl
  · exact if_pos fun hv => h (congrArg some hv)

theorem headerError_wordSize (hv : bs[0]? = some p.bcVersion)
    (h : (bs[1]?).map BitVec.toNat ≠ some (p.W / 8)) :
    headerError p bs = some .wordSizeMismatch := by
  rcases bs with _ | ⟨v, _ | ⟨size, rest⟩⟩
  · simp at hv
  · exact if_neg (not_not_intro (Option.some.inj hv))
  · have hsize : size.toNat ≠ p.B := fun hs => h (congrArg some hs)
    exact (if_neg (not_not_intro (Option.some.inj hv))).trans (if_pos hsize)

theorem headerError_none (hv : bs[0]? = some p.bcVersion)
    (hs : (bs[1]?).map BitVec.toNat = some (p.W / 8)) : headerError p bs = none := by
  rcases bs with _ | ⟨v, _ | ⟨size, rest⟩⟩
  · simp at hv
  · simp at hs
  · have hsize : size.toNat = p.B := Option.some.inj hs
    exact (if_neg (not_not_intro (Option.some.inj hv))).trans (if_neg (not_not_intro hsize))

theorem State.load_bad {e : ErrorState} (h : headerError s.params bs = some e) :
    s.load (.bytes bs) = (.fail, { s with err := e }) := by
  simp only [State.load, h]

theorem State.load_good (h : headerError s.params bs = none) :
    s.load (.bytes bs) = s.appendWords (bodyWords s.params.W (bs.drop 18)) := by
  simp only [State.load, h]

/-- The trailing partial word is dropped (R205). -/
theorem bodyWords_length (W : Nat) (body : List Byte) :
    (bodyWords W body).length = body.length / (W / 8) := by
  rw [bodyWords, List.length_map, List.length_range]

theorem bodyWords_getD {W j : Nat} {body : List Byte} (hj : j < (bodyWords W body).length) :
    (bodyWords W body).getD j 0 = joinBytes W (body.drop (j * (W / 8))) := by
  rw [List.getD_eq_getElem _ _ hj]
  simp [bodyWords]

end Machine

namespace Claims

open Machine

/-- Settles O48: the acceptance table, and `State.perform_ne_refused` for the accepted commands. -/
theorem commandsAcceptedOrRefused : Obligations.CommandsAcceptedOrRefused := by
  unfold Obligations.CommandsAcceptedOrRefused
  intro c s
  refine ⟨fun hs => ?_, fun hs hc => ?_, fun hs hc => ?_, fun hs hw => ?_⟩
  · exact hostCommand_refused (hs ▸ c.accepted_running)
  · have hno : c.accepted .faulted = false := by
      rcases hc with ⟨i, rfl⟩ | rfl | ⟨k, rfl⟩ | ⟨src, rfl⟩ <;> rfl
    exact hostCommand_refused (hs ▸ hno)
  · have hyes : c.accepted .faulted = true := by
      rcases hc with rfl | rfl | rfl | rfl | ⟨b, rfl⟩ | rfl | rfl <;> rfl
    have hrun : s.run ≠ .running := by simp [hs]
    rw [hostCommand_ne_running hrun hyes]
    exact s.perform_ne_refused c
  · rw [hostCommand_idle hs hw]
    exact s.perform_ne_refused c

/-- Settles O53: the bytes of `fileBytes`, header and body. -/
theorem saveWritesTheFormat : Obligations.SaveWritesTheFormat := by
  unfold Obligations.SaveWritesTheFormat
  rintro s hs ⟨⟨-, hW, hW'⟩, -⟩
  have hB : 0 < s.params.W / 8 := Nat.div_pos hW (by norm_num)
  exact ⟨hostCommand_idle hs rfl, fileBytes s.params s.stream, hostCommand_idle hs rfl,
    fileBytes_length hB s.stream, fileBytes_version s.params s.stream,
    fileBytes_wordSize hW' s.stream, fun _ => fileBytes_reserved s.params s.stream,
    fun _ hi _ hk => fileBytes_body hi hk⟩

/-- Settles O54: the three answers of the header check, then the words of the body. -/
theorem loadChecksThenAppends : Obligations.LoadChecksThenAppends := by
  unfold Obligations.LoadChecksThenAppends
  intro s hs
  have hload : ∀ src, hostCommand (.load src) s = s.load src := fun _ => hostCommand_idle hs rfl
  refine ⟨hload .openFailed, fun bs => ⟨fun hv => ?_, fun hv hsize => ?_, fun hv hsize =>
    ⟨bodyWords s.params.W (bs.drop 18), ?_, fun j hj => ?_, fun hfit => ?_, fun hfull => ?_⟩⟩⟩
  · rw [hload, State.load_bad (headerError_version hv)]
  · rw [hload, State.load_bad (headerError_wordSize hv hsize)]
  · rw [bodyWords_length, List.length_drop]
  · rw [bodyWords_getD hj, List.drop_drop, joinBytes_drop]
  · rw [hload, State.load_good (headerError_none hv hsize), State.appendWords_fits hfit]
  · rw [hload, State.load_good (headerError_none hv hsize), State.appendWords_full hfull]

/-- Settles O56: a refused command changes nothing, an accepted one is in `State.perform_err_cases`. -/
theorem errIsStickyAcrossSuccesses : Obligations.ErrIsStickyAcrossSuccesses := by
  unfold Obligations.ErrIsStickyAcrossSuccesses
  intro c s hne
  rcases hostCommand_cases c s with ⟨-, e⟩ | ⟨-, -, e⟩ <;> rw [e] at hne ⊢
  · exact absurd rfl hne
  · exact (s.perform_err_cases c).resolve_left hne

/-- Settles O47: both commands are accepted, and their effects are the model's record updates. -/
theorem clearAndReset : Obligations.ClearAndReset := by
  unfold Obligations.ClearAndReset
  intro s hs
  exact ⟨⟨s.clearEngine, hostCommand_ne_running hs rfl, rfl⟩,
    ⟨s.resetEngine, hostCommand_ne_running hs rfl, rfl⟩⟩

/-- Settles O49: all five commands are accepted, and PEEK reads the head of the stack. -/
theorem readOutsAndSetTrace : Obligations.ReadOutsAndSetTrace := by
  unfold Obligations.ReadOutsAndSetTrace
  intro s hs
  have hpeek : hostCommand .peek s = (.top s.stack.head?, s) := hostCommand_ne_running hs rfl
  refine ⟨fun t rest h => ?_, fun h => ?_, hostCommand_ne_running hs rfl,
    fun _ => hostCommand_ne_running hs rfl, hostCommand_ne_running hs rfl,
    hostCommand_ne_running hs rfl⟩
  · rw [hpeek, h, List.head?_cons]
  · rw [hpeek, h, List.head?_nil]

/-- Settles O50: EMIT appends the encoded instruction, whose length is `1 + arity`. -/
theorem emitAppendsOrIsFull : Obligations.EmitAppendsOrIsFull := by
  unfold Obligations.EmitAppendsOrIsFull
  intro i s hs hi
  have hemit : hostCommand (.emit i) s = s.appendWords (encode s.params i) :=
    hostCommand_idle hs hi
  rw [hemit, ← encode_length s.params i]
  exact ⟨State.appendWords_fits, State.appendWords_full⟩

end Claims

end Sys2Proof
end

section
/-! PROOF. Exceptions (60_exceptions.md): through which operation each instruction reads the stack words it
needs, when the decoder refuses a word, what a fault leaves of the state, and the statements built on
them. -/

namespace Sys2Proof

/-- A word that no mnemonic is numbered with selects none (R89). -/
theorem Params.opcodeOf_eq_none {p : Params} {w : Nat} (h : ∀ m, p.opcodeNumber m ≠ w) :
    p.opcodeOf w = none :=
  List.find?_eq_none.2 fun m _ => by simpa using h m

theorem decode_invalid {p : Params} {w : Nat} (rest : List Nat) (h : p.opcodeOf w = none) :
    decode p w rest = .invalid w := by
  rw [decode, h]

/-- Too few words follow the opcode word (R91). -/
theorem decode_truncated {p : Params} {w : Nat} {rest : List Nat} {m : Opcode}
    (h : p.opcodeOf w = some m) (hr : rest.length < m.arity) :
    decode p w rest = .truncated m w := by
  rcases decode_cases p w rest with ⟨hnone, -⟩ | ⟨m', hsome, hm'⟩
  · exact nomatch h.symm.trans hnone
  · obtain rfl : m = m' := Option.some.inj (h.symm.trans hsome)
    rcases hm' with ⟨-, e⟩ | ⟨i, -, -, hle, -⟩
    · exact e
    · exact absurd hr (Nat.not_lt.2 hle)

namespace Machine

open Claims

variable {i : Instr} {s t : State} {op : Nat} {rest : List Nat}

/-! ### The stack words an instruction needs -/

/-- No instruction needs more than two words (R240). -/
theorem stackNeed_one_or_two {m : Opcode} {k : Nat} (h : (m, k) ∈ stackNeed) : k = 1 ∨ k = 2 :=
  have hall : ∀ e ∈ stackNeed, e.2 = 1 ∨ e.2 = 2 := by decide
  hall (m, k) h

/-- The instructions that need two words read them by `State.withTopTwo`, before any effect (R240). -/
theorem exec_eq_withTopTwo (h : (i.opcode, 2) ∈ stackNeed) (s : State) :
    ∃ f, exec i s = .next (s.withTopTwo f) := by
  cases i with
  | add => exact ⟨_, exec_add s⟩
  | sub => exact ⟨_, exec_sub s⟩
  | mul => exact ⟨_, exec_mul s⟩
  | div => exact ⟨_, exec_div s⟩
  | mod => exact ⟨_, exec_mod s⟩
  | sstore => exact ⟨_, exec_sstore s⟩
  | _ => simp [stackNeed, Instr.opcode] at h

/-- The instructions that need one word read it by `State.withTop`, before any effect (R240). -/
theorem exec_eq_withTop (h : (i.opcode, 1) ∈ stackNeed) (s : State) :
    ∃ f, exec i s = .next (s.withTop f) := by
  cases i with
  | pop => exact ⟨_, exec_pop s⟩
  | inc => exact ⟨_, exec_inc s⟩
  | dec => exact ⟨_, exec_dec s⟩
  | jge cmp addr => exact ⟨_, exec_jge cmp addr s⟩
  | jgt cmp addr => exact ⟨_, exec_jgt cmp addr s⟩
  | jle cmp addr => exact ⟨_, exec_jle cmp addr s⟩
  | jlt cmp addr => exact ⟨_, exec_jlt cmp addr s⟩
  | jeq cmp addr => exact ⟨_, exec_jeq cmp addr s⟩
  | out => exact ⟨_, exec_out s⟩
  | dbg => exact ⟨_, exec_dbg s⟩
  | store addr => exact ⟨_, exec_store addr s⟩
  | sload => exact ⟨_, exec_sload s⟩
  | _ => simp [stackNeed, Instr.opcode] at h

/-! ### The cycle with a word at `ip` -/

/-- Of the cases of a step, a running engine with a word at `ip` leaves the decoder's three. -/
theorem step_cases_of_drop (hr : s.run = .running) (hd : s.stream.drop s.ip = op :: rest) :
    (decode s.params op rest = .invalid op ∧
      step s = .next ((s.fetched op).raise .invalidInstruction op)) ∨
    (∃ m, decode s.params op rest = .truncated m op ∧
      step s = .next ((s.fetched op).raise .truncatedInstruction op)) ∨
    (∃ i, decode s.params op rest = .instr i ∧ step s = exec i (s.fetched op)) := by
  rcases step_cases s with ⟨hne, -⟩ | ⟨-, hnil, -⟩ | ⟨-, op', rest', hd', hcases⟩
  · exact absurd hr hne
  · exact nomatch hd.symm.trans hnil
  · obtain ⟨rfl, rfl⟩ := List.cons.inj (hd.symm.trans hd')
    exact hcases

theorem step_of_decode_invalid (hr : s.run = .running) (hd : s.stream.drop s.ip = op :: rest)
    (hdec : decode s.params op rest = .invalid op) :
    step s = .next ((s.fetched op).raise .invalidInstruction op) := by
  rcases step_cases_of_drop hr hd with ⟨-, e⟩ | ⟨m, hdec', -⟩ | ⟨i, hdec', -⟩
  · exact e
  · exact nomatch hdec.symm.trans hdec'
  · exact nomatch hdec.symm.trans hdec'

theorem step_of_decode_truncated {m : Opcode} (hr : s.run = .running)
    (hd : s.stream.drop s.ip = op :: rest) (hdec : decode s.params op rest = .truncated m op) :
    step s = .next ((s.fetched op).raise .truncatedInstruction op) := by
  rcases step_cases_of_drop hr hd with ⟨hdec', -⟩ | ⟨m', -, e⟩ | ⟨i, hdec', -⟩
  · exact nomatch hdec.symm.trans hdec'
  · exact e
  · exact nomatch hdec.symm.trans hdec'

/-- The trace record holds the fetched opcode word (R200). -/
theorem traceEvents_of_drop (hd : s.stream.drop s.ip = op :: rest) :
    traceEvents s = if s.trace && !s.waiting then [.trace op s.top] else [] := by
  have hop : s.stream.getD s.ip 0 = op := by
    rw [List.getD_eq_getElem?_getD, ← List.head?_drop, hd, List.head?_cons, Option.getD_some]
  rw [traceEvents, hop]

/-! ### What a fault leaves -/

/-- A fault raised in the cycle of `op`, with the whole frame (R232, R238). -/
theorem State.fetched_raise (hd : s.stream.drop s.ip = op :: rest) (f : FaultCode) (info : Nat) :
    (s.fetched op).raise f info =
      { s with
        fault := f, faultIp := s.ip, faultVal := info, run := .faulted, stop := .fault,
        output := s.output ++ traceEvents s, waiting := false } := by
  rw [traceEvents_of_drop hd]
  rfl

/-- Reading a line leaves the run state alone (R154). -/
theorem State.readLine_run {line : List Byte} (h : s.readLine = some (line, t)) :
    t.run = s.run := by
  rcases s.readLine_cases with ⟨_, _, -, e⟩ | ⟨-, -, -, e⟩ | ⟨-, -, e⟩ <;> rw [e] at h <;> cases h
  · rfl
  · rfl

/-- Only a raised fault makes a running engine FAULTED, and it is the instruction's only effect. -/
theorem Effect.eq_raise_of_faulted (h : Effect i s t) (hr : s.run = .running)
    (hf : t.run = .faulted) : ∃ f info, f ≠ .none ∧ t = s.raise f info := by
  have hne : s.run ≠ .faulted := by simp [hr]
  cases h with
  | raised f info hnone => exact ⟨f, info, hnone, rfl⟩
  | storedLine size addr line u hi hc hread =>
    have hu : u.run = s.run := State.readLine_run hread
    exact absurd (hu.symm.trans hf) hne
  | halted => exact nomatch hf
  | waited => exact absurd hf hne
  | stacked => exact absurd hf hne
  | stored => exact absurd hf hne
  | emitted => exact absurd hf hne
  | jumped => exact absurd hf hne

/-- A step that faults fetched a word and raised a fault in that cycle, at decode or in the
instruction. -/
theorem step_faulted (hr : s.run = .running) (h : step s = .next t) (hf : t.run = .faulted) :
    ∃ op rest f info, s.stream.drop s.ip = op :: rest ∧ f ≠ .none ∧
      t = (s.fetched op).raise f info := by
  rcases step_cases s with ⟨hne, e⟩ | ⟨-, -, e⟩ |
    ⟨-, op, rest, hd, ⟨-, e⟩ | ⟨_, -, e⟩ | ⟨i, -, e⟩⟩ <;> rw [e] at h
  · exact absurd hr hne
  · obtain rfl := Host.Outcome.next.inj h
    exact nomatch hf
  · exact ⟨op, rest, _, _, hd, by simp, (Host.Outcome.next.inj h).symm⟩
  · exact ⟨op, rest, _, _, hd, by simp, (Host.Outcome.next.inj h).symm⟩
  · obtain ⟨f, info, hnone, ht⟩ := (exec_effect h).eq_raise_of_faulted hr hf
    exact ⟨op, rest, f, info, hd, hnone, ht⟩

end Machine

namespace Claims

open Machine

/-- Settles O20: an instruction in the list reads its operands by one of the two shared operations,
and each raises the underflow when they are missing. -/
theorem underflowOfEveryInstruction : Obligations.UnderflowOfEveryInstruction := by
  unfold Obligations.UnderflowOfEveryInstruction
  intro i k s hneed hdepth
  rcases stackNeed_one_or_two hneed with rfl | rfl
  · obtain ⟨f, hexec⟩ := exec_eq_withTop hneed s
    have hzero : s.depth = 0 := Nat.lt_one_iff.1 hdepth
    rw [hexec, State.withTop_nil (List.length_eq_zero_iff.1 hzero), hzero]
  · obtain ⟨f, hexec⟩ := exec_eq_withTopTwo hneed s
    rw [hexec, State.withTopTwo_short hdepth]

/-- Settles O22: by `step_faulted` the state after is a raise on the fetched state. -/
theorem faultsArePrecise : Obligations.FaultsArePrecise := by
  unfold Obligations.FaultsArePrecise
  intro s t hr h hf
  obtain ⟨op, rest, f, info, hd, hnone, ht⟩ := step_faulted hr h hf
  rw [State.fetched_raise hd] at ht
  subst ht
  exact ⟨hnone, rfl⟩

/-- Settles O27: the decoder's two refusals, and the frame of the fault each one raises. -/
theorem undecodableWordsFault : Obligations.UndecodableWordsFault := by
  unfold Obligations.UndecodableWordsFault
  intro s w rest hr hd
  refine ⟨fun hno => ?_, fun m hm hlen => ?_⟩
  · have hdec := decode_invalid rest (Params.opcodeOf_eq_none hno)
    exact ⟨_, step_of_decode_invalid hr hd hdec, State.fetched_raise hd _ _⟩
  · have hwords : s.slen - s.ip = rest.length + 1 := by
      rw [State.slen, ← List.length_drop, hd, List.length_cons]
    have hdec := decode_truncated hm (show rest.length < m.arity by omega)
    exact ⟨_, step_of_decode_truncated hr hd hdec, State.fetched_raise hd _ _⟩

/-- Settles O21: the record update is `raise`'s own, and a FAULTED engine executes nothing (R32). -/
theorem raiseWritesTheFaultRecord : Obligations.RaiseWritesTheFaultRecord := by
  unfold Obligations.RaiseWritesTheFaultRecord
  intro s f info
  have hstopped : (s.raise f info).run ≠ .running := by simp
  exact ⟨_, rfl, rfl, rfl, step_of_not_running hstopped⟩

end Claims

end Sys2Proof
end

section
/-! PROOF. Reset and power-on (70_reset_and_hazards.md section 1, R271): power-on forgets everything inside
the engine, so the state at reset is one of its results and shares their fields. -/

namespace Sys2Proof

namespace Machine

/-- What power-on keeps is the build and what lies outside the engine (R36, R37); the rest is the state at
reset. -/
theorem State.powerOn_eq_reset (s : State) :
    s.powerOn = { State.reset with output := s.output, input := s.input, params := s.params } := rfl

end Machine

namespace Claims

open Machine

/-- Settles O46: the state at reset is its own power-on, so what holds after every power-on holds of it. -/
theorem powerOnState : Obligations.PowerOnState := by
  unfold Obligations.PowerOnState
  refine (and_iff_right_of_imp fun hOn => hOn _ _ (State.powerOn_eq_reset State.reset)).2 ?_
  rintro s _ rfl
  simp

end Claims

end Sys2Proof
end

section
/-! PROOF. Encoding (30_encoding.md section 3): the opcode numbers of a legal build, decoding and encoding as
inverses of each other, for one instruction and for a program, and the statements built on them. -/

namespace Sys2Proof

variable {p : Params} {w : Nat} {rest : List Nat} {i : Instr} {m : Opcode}

/-! ### Opcode numbers -/

theorem Opcode.index_lt (m : Opcode) : m.index < 23 := by cases m <;> decide

/-- Every place of the document's table is some mnemonic's (R84). -/
theorem Opcode.exists_index_eq {k : Nat} (hk : k < 23) : ∃ m : Opcode, m.index = k :=
  have hall : ∀ k < 23, ∃ m ∈ Opcode.all, m.index = k := by decide
  (hall k hk).imp fun _ => And.right

theorem Params.opcodeNumber_eq_getElem (hl : p.opc.length = 23) (m : Opcode) :
    p.opcodeNumber m = p.opc[m.index]'(hl ▸ m.index_lt) :=
  List.getD_eq_getElem _ _ _

/-- The opcode numbers of a build with 23 of them are the entries of OPC (R84). -/
theorem Params.mem_opc_iff (hl : p.opc.length = 23) : w ∈ p.opc ↔ ∃ m, p.opcodeNumber m = w := by
  constructor
  · intro hw
    obtain ⟨k, hk, rfl⟩ := List.getElem_of_mem hw
    obtain ⟨m, rfl⟩ := Opcode.exists_index_eq (hl ▸ hk)
    exact ⟨m, Params.opcodeNumber_eq_getElem hl m⟩
  · rintro ⟨m, rfl⟩
    rw [Params.opcodeNumber_eq_getElem hl]
    exact List.getElem_mem _

/-- The mnemonic that a word selects is numbered with that word (R82). -/
theorem Params.opcodeNumber_of_opcodeOf (h : p.opcodeOf w = some m) : p.opcodeNumber m = w :=
  eq_of_beq (List.find?_some (p := fun m => p.opcodeNumber m == w) h)

/-- The words that select no mnemonic are those outside OPC (R82, R89). -/
theorem Params.opcodeOf_eq_none_iff (hl : p.opc.length = 23) : p.opcodeOf w = none ↔ w ∉ p.opc := by
  rw [Params.mem_opc_iff hl, not_exists]
  refine ⟨fun h m hm => ?_, Params.opcodeOf_eq_none⟩
  exact List.find?_eq_none.1 h m (Opcode.mem_all m) (beq_iff_eq.2 hm)

/-! ### One instruction -/

/-- The operands of an instruction after its mnemonic assemble to it, whatever follows (R88). -/
theorem decodeOperands_operands (i : Instr) (w : Nat) (rest : List Nat) :
    decodeOperands i.opcode w (i.operands ++ rest) = .instr i := by
  cases i <;> rfl

theorem decode_encode (hp : p.Valid) (i : Instr) (rest : List Nat) :
    decode p (p.opcodeNumber i.opcode) (i.operands ++ rest) = .instr i := by
  simp only [decode, Params.opcodeOf_opcodeNumber hp, decodeOperands_operands]

/-- What decodes to an instruction begins with its number and its operands (R88). -/
theorem opcodeNumber_operands_of_decode (h : decode p w rest = .instr i) :
    p.opcodeNumber i.opcode = w ∧ i.operands = rest.take i.opcode.arity ∧
      i.opcode.arity ≤ rest.length := by
  rcases decode_cases p w rest with ⟨-, e⟩ | ⟨m, hm, ⟨-, e⟩ | ⟨j, hj, hops, hlen, e⟩⟩ <;>
    cases e.symm.trans h
  subst hj
  exact ⟨Params.opcodeNumber_of_opcodeOf hm, hops, hlen⟩

theorem decode_eq_invalid_iff (hl : p.opc.length = 23) (rest : List Nat) :
    decode p w rest = .invalid w ↔ w ∉ p.opc := by
  rw [← Params.opcodeOf_eq_none_iff hl]
  refine ⟨fun h => ?_, decode_invalid rest⟩
  rcases decode_cases p w rest with ⟨hnone, -⟩ | ⟨m, -, ⟨-, e⟩ | ⟨i, -, -, -, e⟩⟩
  · exact hnone
  · exact nomatch e.symm.trans h
  · exact nomatch e.symm.trans h

theorem decode_eq_truncated_iff (hm : p.opcodeOf w = some m) (rest : List Nat) :
    decode p w rest = .truncated m w ↔ rest.length < m.arity := by
  refine ⟨fun h => ?_, decode_truncated hm⟩
  rcases decode_cases p w rest with ⟨-, e⟩ | ⟨m', -, ⟨hlt, e⟩ | ⟨i, -, -, -, e⟩⟩ <;>
    cases e.symm.trans h
  exact hlt

/-- In a state with an instruction at `ip`, the words of the stream from there on (R90). -/
theorem drop_of_decodeAt {stream : List Nat} {k : Nat}
    (h : decodeAt p stream k = some (.instr i)) :
    ∃ w rest, stream.drop k = w :: rest ∧ decode p w rest = .instr i := by
  cases hd : stream.drop k with
  | nil => simp [decodeAt, hd] at h
  | cons w rest => exact ⟨w, rest, rfl, Option.some.inj ((decodeAt_of_drop hd).symm.trans h)⟩

/-! ### Programs -/

theorem decodeAt_append_encode (hp : p.Valid) (before : List Nat) (i : Instr) (after : List Nat) :
    decodeAt p (before ++ (encode p i ++ after)) before.length = some (.instr i) := by
  have hdrop : (before ++ (encode p i ++ after)).drop before.length = encode p i ++ after :=
    List.drop_left
  exact (decodeAt_of_drop hdrop).trans (congrArg some (decode_encode hp i after))

theorem decodeProgram_succ {stream : List Nat} {n k : Nat}
    (h : decodeAt p stream k = some (.instr i)) :
    decodeProgram p stream (n + 1) k = i :: decodeProgram p stream n (k + i.length) := by
  simp only [decodeProgram, h]

/-- The round trip from any place of the stream on: the words before it do not matter (R88). -/
theorem decodeProgram_append_encodeProgram (hp : p.Valid) (before : List Nat) (is : List Instr)
    {n : Nat} (hn : is.length ≤ n) :
    decodeProgram p (before ++ encodeProgram p is) n before.length = is := by
  induction is generalizing before n with
  | nil => cases n <;> simp [decodeProgram, decodeAt, encodeProgram]
  | cons i is ih =>
    obtain ⟨n, rfl⟩ : ∃ k, n = k + 1 := ⟨n - 1, by rw [List.length_cons] at hn; omega⟩
    have hnext : (before ++ encode p i).length = before.length + i.length := by
      rw [List.length_append, encode_length, Instr.length]
    rw [encodeProgram, List.flatMap_cons, decodeProgram_succ (decodeAt_append_encode hp _ _ _),
      ← List.append_assoc, ← hnext]
    exact congrArg (i :: ·) (ih (before ++ encode p i) (Nat.le_of_succ_le_succ hn))

namespace Claims

/-- Settles O33: the stream dropped to the instruction is its number, its operands and the rest. -/
theorem decodeOfEncode : Obligations.DecodeOfEncode := by
  unfold Obligations.DecodeOfEncode
  intro p before after i hp
  rw [List.append_assoc]
  exact decodeAt_append_encode hp before i after

/-- Settles O36, by induction on the program, at any place of a stream. -/
theorem programRoundTrip : Obligations.ProgramRoundTrip := by
  unfold Obligations.ProgramRoundTrip
  intro p is n hp hn
  exact decodeProgram_append_encodeProgram hp [] is hn

/-- Settles O34: the operands are the first words after the opcode word. -/
theorem encodeOfDecode : Obligations.EncodeOfDecode := by
  unfold Obligations.EncodeOfDecode
  intro p w rest i h
  obtain ⟨hnumber, hops, -⟩ := opcodeNumber_operands_of_decode h
  refine ⟨?_, encode_length p i⟩
  rw [encode, hnumber, hops, List.cons_append, List.take_append_drop]

/-- Settles O35: the decoder refuses what `opcodeOf` does not know and what is too short. -/
theorem decodeRejectsExactlyIllegalWords : Obligations.DecodeRejectsExactlyIllegalWords := by
  unfold Obligations.DecodeRejectsExactlyIllegalWords
  intro p w rest hp
  obtain ⟨-, ⟨hl, -⟩, -⟩ := id hp
  refine ⟨decode_eq_invalid_iff hl rest, ?_, ?_⟩
  · rintro m rfl
    exact decode_eq_truncated_iff (Params.opcodeOf_opcodeNumber hp m) rest
  · rw [decode_eq_invalid_iff rfl, Params.default, List.mem_range, Nat.not_lt]

/-- Settles O37: the seven streams are decoded by computation. -/
theorem writtenOutWordsDecode : Obligations.WrittenOutWordsDecode := by
  unfold Obligations.WrittenOutWordsDecode
  decide

end Claims

end Sys2Proof
end

section
/-! PROOF. The canonical form of memory (20_memory.md section 2): a canonical memory is determined by what its
reads answer. -/

namespace Sys2Proof

namespace Machine

variable {a v : Nat} {l l' : List (Nat × Nat)} {m m' : Memory}

theorem mem_of_readCell_ne_zero (h : readCell a l ≠ 0) : (a, readCell a l) ∈ l := by
  induction l with
  | nil => exact absurd rfl h
  | cons c t ih =>
    simp only [readCell] at h ⊢
    split at h
    · next heq => simp [heq]
    · next hne => simpa [hne] using .inr (ih h)

/-- Under rising addresses a listed word is the one that is read. -/
theorem readCell_of_mem (hs : (l.map Prod.fst).Pairwise (· < ·)) (h : (a, v) ∈ l) :
    readCell a l = v := by
  induction l with
  | nil => simp at h
  | cons c t ih =>
    obtain ⟨hc, ht⟩ := sorted_cons.1 hs
    rcases List.mem_cons.1 h with rfl | h
    · simp [readCell]
    · simp only [readCell, if_neg (Nat.ne_of_gt (hc _ h)), ih ht h]

/-- What one list of nonzero cells holds is listed by another that reads alike. -/
theorem mem_of_readCell_eq (hs : (l.map Prod.fst).Pairwise (· < ·)) (hn : ∀ c ∈ l, c.2 ≠ 0)
    (h : ∀ x, readCell x l = readCell x l') {c : Nat × Nat} (hc : c ∈ l) : c ∈ l' := by
  have hread : readCell c.1 l' = c.2 := (h c.1).symm.trans (readCell_of_mem hs hc)
  have hlisted := mem_of_readCell_ne_zero (hread ▸ hn c hc)
  rwa [hread] at hlisted

theorem nodup_of_sorted (hs : (l.map Prod.fst).Pairwise (· < ·)) : l.Nodup := by
  refine (List.pairwise_map.1 hs).imp fun hlt => ?_
  rintro rfl
  exact lt_irrefl _ hlt

/-- The list of nonzero cells with rising addresses is determined by what is read from it. -/
theorem cells_eq_of_readCell_eq (hs : (l.map Prod.fst).Pairwise (· < ·))
    (hs' : (l'.map Prod.fst).Pairwise (· < ·)) (hn : ∀ c ∈ l, c.2 ≠ 0) (hn' : ∀ c ∈ l', c.2 ≠ 0)
    (h : ∀ x, readCell x l = readCell x l') : l = l' := by
  have hperm : l.Perm l' :=
    (List.perm_ext_iff_of_nodup (nodup_of_sorted hs) (nodup_of_sorted hs')).2 fun _ =>
      ⟨mem_of_readCell_eq hs hn h, mem_of_readCell_eq hs' hn' fun x => (h x).symm⟩
  exact hperm.eq_of_pairwise (fun _ _ _ _ h₁ h₂ => absurd h₁ (lt_asymm h₂))
    (List.pairwise_map.1 hs) (List.pairwise_map.1 hs')

/-- A memory as long as its reads answer is no longer than another that answers alike. -/
theorem Memory.mlen_le_of_read_eq (h : ∀ x, m.read x = m'.read x) : m.mlen ≤ m'.mlen := by
  by_contra hlt
  have hx := h m'.mlen
  rw [Memory.read_eq_none le_rfl, Memory.read_eq_some (Nat.lt_of_not_le hlt)] at hx
  exact nomatch hx

/-- Memories of one length that answer alike hold the same in every cell, beyond the end too. -/
theorem Memory.readCell_eq_of_read_eq (hm : m.wf) (hm' : m'.wf) (hlen : m.mlen = m'.mlen)
    (h : ∀ x, m.read x = m'.read x) (x : Nat) : readCell x m.cells = readCell x m'.cells := by
  rcases Nat.lt_or_ge x m.mlen with hx | hx
  · have := h x
    rw [Memory.read_eq_some hx, Memory.read_eq_some (hlen ▸ hx)] at this
    exact Option.some.inj this
  · rw [Memory.readCell_of_mlen_le hm hx, Memory.readCell_of_mlen_le hm' (hlen ▸ hx)]

end Machine

namespace Claims

open Machine

/-- Settles O19: the reads determine the length, then every cell, then the list of cells. -/
theorem canonicalMemoriesReadingAlikeAreEqual :
    Obligations.CanonicalMemoriesReadingAlikeAreEqual := by
  unfold Obligations.CanonicalMemoriesReadingAlikeAreEqual
  intro m m' hm hm' h
  have hlen : m.mlen = m'.mlen :=
    le_antisymm (Memory.mlen_le_of_read_eq h) (Memory.mlen_le_of_read_eq fun x => (h x).symm)
  have hcells : m.cells = m'.cells :=
    cells_eq_of_readCell_eq hm.1 hm'.1 (fun c hc => (hm.2 c hc).1) (fun c hc => (hm'.2 c hc).1)
      (Memory.readCell_eq_of_read_eq hm hm' hlen h)
  cases m
  cases m'
  cases hlen
  cases hcells
  rfl

end Claims

end Sys2Proof
end

section
/-! PROOF. The cycle (30_encoding.md section 4): what a step does at the end of the stream and with a decoded
instruction, a waiting IN from its first cycle to its last (42_io.md section 3), and the statements built
on them. -/

namespace Sys2Proof

namespace Machine

open Claims

variable {s : State} {i : Instr} {op : Nat} {rest : List Nat} {size addr : Nat}

/-! ### One step -/

theorem State.drop_eq_nil_iff (s : State) : s.stream.drop s.ip = [] ↔ s.slen ≤ s.ip :=
  List.drop_eq_nil_iff

/-- Step 1 of the cycle (R90). -/
theorem step_at_end (hr : s.run = .running) (h : s.slen ≤ s.ip) :
    step s = .next (s.endRun .endOfStream) := by
  have hd := s.drop_eq_nil_iff.2 h
  rcases step_cases s with ⟨hne, -⟩ | ⟨-, -, e⟩ | ⟨-, op, rest, hd', -⟩
  · exact absurd hr hne
  · exact e
  · exact nomatch hd.symm.trans hd'

theorem step_of_decode_instr (hr : s.run = .running) (hd : s.stream.drop s.ip = op :: rest)
    (hdec : decode s.params op rest = .instr i) : step s = exec i (s.fetched op) := by
  rcases step_cases_of_drop hr hd with ⟨hdec', -⟩ | ⟨m, hdec', -⟩ | ⟨j, hdec', e⟩ <;>
    cases hdec.symm.trans hdec'
  exact e

/-- The state an instruction runs on: the trace event of the cycle is out, no wait is pending (R90). -/
def State.traced (s : State) : State :=
  { s with output := s.output ++ traceEvents s, waiting := false }

theorem State.fetched_eq_traced (hd : s.stream.drop s.ip = op :: rest) :
    s.fetched op = s.traced := by
  rw [State.traced, traceEvents_of_drop hd]
  rfl

/-- A cycle that goes on waiting has emitted its trace event (R154, R90 step 3). -/
theorem State.traced_of_waiting (h : s.waiting = true) : s.traced = s.endWait := by
  have hnone : traceEvents s = [] := by simp [traceEvents, h]
  rw [State.traced, hnone, List.append_nil]
  rfl

/-- Steps 2 to 6 of the cycle (R90). -/
theorem step_of_decodeAt (hr : s.run = .running)
    (h : decodeAt s.params s.stream s.ip = some (.instr i)) : step s = exec i s.traced := by
  obtain ⟨op, rest, hd, hdec⟩ := drop_of_decodeAt h
  rw [step_of_decode_instr hr hd hdec, State.fetched_eq_traced hd]

/-- Every arm of `exec` answers a next state. -/
theorem exec_next (i : Instr) (s : State) : ∃ t, exec i s = .next t := by
  cases i <;> exact ⟨_, rfl⟩

theorem step_next (s : State) : ∃ t, step s = .next t := by
  rcases step_cases s with ⟨-, e⟩ | ⟨-, -, e⟩ |
    ⟨-, op, rest, -, ⟨-, e⟩ | ⟨_, -, e⟩ | ⟨i, -, e⟩⟩
  · exact ⟨_, e⟩
  · exact ⟨_, e⟩
  · exact ⟨_, e⟩
  · exact ⟨_, e⟩
  · exact e ▸ exec_next i _

/-! ### A waiting IN -/

theorem step_inLine_wait (hr : s.run = .running)
    (hi : decodeAt s.params s.stream s.ip = some (.instr (.inLine size addr)))
    (hc : addr + size < s.params.memCap) (hawait : lineAwaited s) :
    step s = .next s.traced.wait := by
  have hnone : s.traced.readLine = none := State.readLine_of_lineAwaited hawait
  exact (step_of_decodeAt hr hi).trans (execIn_wait hc hnone)

theorem step_inLine_line {line : List Byte} {inp : InputSource} (hr : s.run = .running)
    (hi : decodeAt s.params s.stream s.ip = some (.instr (.inLine size addr)))
    (hc : addr + size < s.params.memCap) (hread : lineRead s line inp) :
    step s = .next (s.traced.lineDone size addr line inp) := by
  have hsome : s.traced.readLine = some (line, { s.traced with input := inp }) :=
    State.readLine_of_lineRead hread
  exact (step_of_decodeAt hr hi).trans (execIn_line hc hsome)

/-- The wait goes on (R154). -/
theorem State.wait_traced_wait (s : State) : s.wait.traced.wait = s.wait := by
  rw [State.traced_of_waiting (s := s.wait) rfl]
  rfl

/-- A delivered line is what the read finds that had to wait (R154). -/
theorem lineRead_deliverLine (h : lineAwaited s) (line : List Byte) :
    lineRead (s.deliverLine line) line s.input :=
  .inl ⟨by rw [State.deliverLine_input, h.1]; rfl, rfl⟩

/-! ### EXECUTE -/

/-- At the end of the stream the run that EXECUTE starts is one cycle long (R193). -/
theorem executeEndsIn_at_end (hs : s.run = .idle) (h : s.slen ≤ s.ip) :
    s.executeEndsIn (s.startRun.endRun .endOfStream) := by
  have hexec : hostCommand .execute s = (.started, s.startRun) := hostCommand_idle hs rfl
  have hstep : step s.startRun = .next (s.startRun.endRun .endOfStream) := step_at_end rfl h
  refine ⟨by rw [hexec], 1, ?_, by simp, fun k hk => ?_⟩
  · simp only [hexec, State.steps, hstep]
  · obtain rfl := Nat.lt_one_iff.1 hk
    rw [hexec]
    rfl

end Machine

namespace Claims

open Machine

/-- Settles O25: the decoded word at `ip` is the one that is fetched. -/
theorem stepRunsTheDecodedInstruction : Obligations.StepRunsTheDecodedInstruction := by
  unfold Obligations.StepRunsTheDecodedInstruction
  exact fun s i => step_of_decodeAt

/-- Settles O26: step 1 of the cycle. -/
theorem stepEndsTheRunAtTheEndOfTheStream : Obligations.StepEndsTheRunAtTheEndOfTheStream := by
  unfold Obligations.StepEndsTheRunAtTheEndOfTheStream
  intro s hr h
  exact ⟨_, step_at_end hr h, rfl, State.executeResponse_endRun s .endOfStream⟩

/-- Settles O28: of the cases of a step only the identity is left. -/
theorem stoppedEngineExecutesNothing : Obligations.StoppedEngineExecutesNothing := by
  unfold Obligations.StoppedEngineExecutesNothing
  exact fun s => step_of_not_running

/-- Settles O32: no arm of `exec` faults the model or refuses, and no case of a step does. -/
theorem everyInstructionHasANextState : Obligations.EveryInstructionHasANextState := by
  unfold Obligations.EveryInstructionHasANextState
  exact ⟨exec_next, step_next⟩

/-- Settles O9: the jump is inside the stream, and the next cycle finds nothing to fetch. -/
theorem jumpToTheEndEndsTheRun : Obligations.JumpToTheEndEndsTheRun := by
  unfold Obligations.JumpToTheEndEndsTheRun
  intro s hr
  have hend : step { s with ip := s.slen } = .next (State.endRun { s with ip := s.slen } .endOfStream) :=
    step_at_end hr le_rfl
  exact ⟨_, _, by rw [exec_jmp, State.takeJump_within le_rfl], hend, rfl⟩

/-- Settles O14: the first cycle emits the trace event and waits, a later one finds nothing to emit, and
the one after the delivery reads that line. -/
theorem inWaitsForALine : Obligations.InWaitsForALine := by
  unfold Obligations.InWaitsForALine
  intro s size addr hr hi hc hawait
  have hline : ∀ line, step (s.traced.wait.deliverLine line) =
      .next ((s.traced.wait.deliverLine line).traced.lineDone size addr line s.input) :=
    fun line => step_inLine_line hr hi hc (lineRead_deliverLine (s := s.traced.wait) hawait line)
  refine ⟨s.traced.wait, step_inLine_wait hr hi hc hawait, rfl, ?_, fun line =>
    ⟨_, hline line, ?_, fun hwf => Memory.storeLine_lineStored hwf s.params.W size addr line⟩⟩
  · rw [step_inLine_wait (s := s.traced.wait) hr hi hc hawait, State.wait_traced_wait]
  · rw [State.traced_of_waiting (s := s.traced.wait.deliverLine line) rfl]
    rfl

/-- Settles O24: underflow is raised before anything else is looked at, an unallocated read before the
stack is, and a truncated instruction before any operand is. -/
theorem faultOrder : Obligations.FaultOrder := by
  unfold Obligations.FaultOrder
  intro s
  have underflow : ∀ (i : Instr) (k : Nat), (i.opcode, k) ∈ stackNeed → s.stack.length < k →
      exec i s = .next (s.raise .stackUnderflow s.stack.length) :=
    fun i k => underflowOfEveryInstruction i k s
  refine ⟨fun hs => ⟨?_, ?_⟩, fun addr h _ => execLoad_unallocated h, fun addr hs _ => ?_,
    fun addr hs _ => ?_, fun cmp addr hs _ => ?_, fun w cmp hr _ hw hd => ?_⟩
  · simpa [hs] using underflow .div 2 (by decide)
  · simpa [hs] using underflow .mod 2 (by decide)
  · simpa [hs] using underflow (.store addr) 1 (by simp [stackNeed, Instr.opcode])
  · simpa [hs] using underflow .sstore 2 (by decide)
  · simpa [hs] using underflow (.jle cmp addr) 1 (by simp [stackNeed, Instr.opcode])
  · have hdec := decode_truncated (rest := [cmp]) hw Nat.one_lt_two
    exact ⟨_, step_of_decode_truncated hr hd hdec, State.raise_fault _ _ _⟩

/-- Settles O51: EXECUTE writes `run` and `stop`, and the one cycle at the end writes them again. -/
theorem executeStartsAndEnds : Obligations.ExecuteStartsAndEnds := by
  unfold Obligations.ExecuteStartsAndEnds
  intro s hs
  refine ⟨⟨s.startRun, hostCommand_idle hs rfl, rfl⟩, fun hend =>
    ⟨_, executeEndsIn_at_end hs hend.ge, ?_⟩⟩
  calc s.startRun.endRun .endOfStream
      = { s with run := .idle, stop := .endOfStream, waiting := false } := rfl
    _ = { s with stop := .endOfStream, waiting := false } := by rw [← hs]

end Claims

end Sys2Proof
end

section
/-! PROOF. What a step can change (10_state.md): for each component of the state, what one instruction and then
one step does to it, and the statements built on that. -/

namespace Sys2Proof

namespace Machine

open Claims

variable {i : Instr} {s t : State}

/-! ### One step, said as the state it answers -/

/-- The states a step can answer. -/
inductive StepEffect (s : State) : State → Prop where
  /-- an engine that is not RUNNING executes nothing (R32) -/
  | stopped (hr : s.run ≠ .running) : StepEffect s s
  /-- the end of the stream (R90 step 1) -/
  | ended (hr : s.run = .running) (he : s.slen ≤ s.ip) : StepEffect s (s.endRun .endOfStream)
  /-- the word at `ip` does not decode (R242, R243) -/
  | undecoded (op : Nat) (rest : List Nat) (f : FaultCode) (info : Nat) (hr : s.run = .running)
      (hd : s.stream.drop s.ip = op :: rest) (hf : f ≠ .none) :
      StepEffect s ((s.fetched op).raise f info)
  /-- the decoded instruction runs (R90 step 6) -/
  | ran (op : Nat) (rest : List Nat) (i : Instr) (t : State) (hr : s.run = .running)
      (hd : s.stream.drop s.ip = op :: rest) (hdec : decode s.params op rest = .instr i)
      (he : Effect i (s.fetched op) t) : StepEffect s t

theorem step_effect (h : step s = .next t) : StepEffect s t := by
  rcases step_cases s with ⟨hr, e⟩ | ⟨hr, hd, e⟩ |
    ⟨hr, op, rest, hd, ⟨-, e⟩ | ⟨_, -, e⟩ | ⟨i, hdec, e⟩⟩ <;> rw [e] at h
  · obtain rfl := Host.Outcome.next.inj h
    exact .stopped hr
  · obtain rfl := Host.Outcome.next.inj h
    exact .ended hr (s.drop_eq_nil_iff.1 hd)
  · obtain rfl := Host.Outcome.next.inj h
    exact .undecoded op rest _ _ hr hd (by simp)
  · obtain rfl := Host.Outcome.next.inj h
    exact .undecoded op rest _ _ hr hd (by simp)
  · exact .ran op rest i t hr hd hdec (exec_effect h)

/-- With a word at `ip` the stream has not ended. -/
theorem State.ip_lt_slen {op : Nat} {rest : List Nat} (hd : s.stream.drop s.ip = op :: rest) :
    s.ip < s.slen := by
  by_contra hle
  exact nomatch hd.symm.trans (s.drop_eq_nil_iff.2 (Nat.le_of_not_lt hle))

/-- A read line changes the input source and nothing else (R154). -/
theorem State.readLine_eq {line : List Byte} (h : s.readLine = some (line, t)) :
    t = { s with input := t.input } ∧ lineRead s line t.input := by
  rcases s.readLine_cases with ⟨_, rest, hl, e⟩ | ⟨hl, hended, hpolicy, e⟩ | ⟨-, -, e⟩ <;>
    cases e.symm.trans h
  · exact ⟨rfl, .inl ⟨hl, rfl⟩⟩
  · exact ⟨rfl, .inr ⟨hl, hended, hpolicy, rfl, rfl⟩⟩

/-- IN with a line ends in the state `State.lineDone` (R153). -/
theorem State.storedLine_eq {line : List Byte} {size addr : Nat}
    (h : s.readLine = some (line, t)) :
    ((t.withMem (t.mem.storeLine t.params.W size addr line)).advance .inLine).endWait =
      s.lineDone size addr line t.input := by
  rw [(State.readLine_eq h).1]
  rfl

/-! ### Stream, Error State, trace toggle and parameters -/

/-- `t` has the stream, the Error State, the trace toggle and the parameters of `s`. -/
def State.sameFixed (s t : State) : Prop :=
  t.stream = s.stream ∧ t.err = s.err ∧ t.trace = s.trace ∧ t.params = s.params

theorem Effect.sameFixed (h : Effect i s t) : s.sameFixed t := by
  cases h with
  | storedLine size addr line u hi hc hread =>
    rw [State.storedLine_eq hread]
    exact ⟨rfl, rfl, rfl, rfl⟩
  | _ => exact ⟨rfl, rfl, rfl, rfl⟩

theorem StepEffect.sameFixed (h : StepEffect s t) : s.sameFixed t := by
  cases h with
  | ran op rest i t hr hd hdec he => exact he.sameFixed
  | _ => exact ⟨rfl, rfl, rfl, rfl⟩

/-! ### Output -/

/-- An instruction appends events, and none of them is a trace event (R36). -/
theorem Effect.output_eq (h : Effect i s t) :
    ∃ evs, t.output = s.output ++ evs ∧ ∀ e ∈ evs, ∀ o x, e ≠ .trace o x := by
  cases h with
  | emitted es hi he => exact ⟨es, rfl, he⟩
  | storedLine size addr line u hi hc hread =>
    rw [State.storedLine_eq hread]
    exact ⟨[], (List.append_nil _).symm, by simp⟩
  | _ => exact ⟨[], (List.append_nil _).symm, by simp⟩

/-- A cycle that fetches a word appends its trace event, if any, then events that are not (R90, R200). -/
theorem StepEffect.output_eq {op : Nat} {rest : List Nat} (h : StepEffect s t)
    (hr : s.run = .running) (hd : s.stream.drop s.ip = op :: rest) :
    ∃ evs, t.output = s.output ++ traceEvents s ++ evs ∧ ∀ e ∈ evs, ∀ o x, e ≠ .trace o x := by
  cases h with
  | stopped hne => exact absurd hr hne
  | ended _ hend => exact absurd hend (Nat.not_le.2 (State.ip_lt_slen hd))
  | undecoded op' rest' f info _ hd' =>
    rw [State.fetched_eq_traced hd']
    exact ⟨[], (List.append_nil _).symm, by simp⟩
  | ran op' rest' i _ _ hd' _ he =>
    rw [State.fetched_eq_traced hd'] at he
    exact he.output_eq

/-- Without a word at `ip`, or with the engine stopped, nothing is emitted. -/
theorem StepEffect.output_eq_of_end (h : StepEffect s t) (hend : s.run = .running → s.slen ≤ s.ip) :
    t.output = s.output := by
  cases h with
  | stopped => rfl
  | ended => rfl
  | undecoded op rest f info hr hd => exact absurd (hend hr) (Nat.not_le.2 (State.ip_lt_slen hd))
  | ran op rest i t hr hd => exact absurd (hend hr) (Nat.not_le.2 (State.ip_lt_slen hd))

theorem StepEffect.output_appended (h : StepEffect s t) : ∃ evs, t.output = s.output ++ evs := by
  by_cases hend : s.run = .running → s.slen ≤ s.ip
  · exact ⟨[], by rw [h.output_eq_of_end hend, List.append_nil]⟩
  · obtain ⟨hr, hlt⟩ := Classical.not_imp.1 hend
    obtain ⟨op, rest, hd⟩ := List.exists_cons_of_ne_nil (mt s.drop_eq_nil_iff.1 hlt)
    obtain ⟨evs, e, -⟩ := h.output_eq hr hd
    exact ⟨traceEvents s ++ evs, by rw [e, List.append_assoc]⟩

theorem State.appendWords_output (s : State) (ws : List Nat) :
    (s.appendWords ws).2.output = s.output := by
  rcases s.appendWords_cases ws with ⟨-, e⟩ | ⟨-, e⟩ <;> rw [e]

/-- No command has output among its effects (R192). -/
theorem State.perform_output (s : State) (c : Command) : (s.perform c).2.output = s.output := by
  cases c with
  | emit i => exact s.appendWords_output _
  | save sink => cases sink <;> rfl
  | load src =>
    rcases s.load_cases src with ⟨_, -, -, e⟩ | ⟨bs, -, -, e⟩ <;> simp only [State.perform, e]
    exact s.appendWords_output _
  | _ => rfl

theorem hostCommand_output (c : Command) (s : State) : (hostCommand c s).2.output = s.output := by
  rcases hostCommand_cases c s with ⟨-, e⟩ | ⟨-, -, e⟩ <;> rw [e]
  exact s.perform_output c

/-! ### Input -/

/-- Only IN changes the input source, by taking the oldest line, and then it completes (R154). -/
theorem Effect.input_cases (h : Effect i s t) :
    t.input = s.input ∨
    ∃ size addr, i = .inLine size addr ∧ t.ip = s.ip + 3 ∧ t.input.ended = s.input.ended ∧
      ∃ line, s.input.lines = line :: t.input.lines := by
  cases h with
  | storedLine size addr line u hi hc hread =>
    rw [State.storedLine_eq hread]
    rcases (State.readLine_eq hread).2 with ⟨hlines, hended⟩ | ⟨-, -, -, -, hinp⟩
    · exact .inr ⟨size, addr, hi, rfl, hended, line, hlines⟩
    · exact .inl hinp
  | _ => exact .inl rfl

theorem StepEffect.input_cases (h : StepEffect s t) :
    t.input = s.input ∨
    ∃ size addr, decodeAt s.params s.stream s.ip = some (.instr (.inLine size addr)) ∧
      t.ip = s.ip + 3 ∧ t.input.ended = s.input.ended ∧
      ∃ line, s.input.lines = line :: t.input.lines := by
  cases h with
  | ran op rest i t hr hd hdec he =>
    rcases he.input_cases with hsame | ⟨size, addr, rfl, hread⟩
    · exact .inl hsame
    · exact .inr ⟨size, addr, by rw [decodeAt_of_drop hd, hdec], hread⟩
  | _ => exact .inl rfl

/-! ### Program counter -/

/-- `ip` after one instruction (R24): a fault or a wait leaves it, a jump sets it, the rest advance. -/
theorem Effect.ip_cases (h : Effect i s t) :
    t.ip = s.ip ∨ t.ip = s.ip + i.length ∨
    (i.opcode ∈ jumpOpcodes ∧ i.operands.getLast? = some t.ip ∧ t.ip ≤ s.slen) := by
  have hnext : s.ip + 1 + i.opcode.arity = s.ip + i.length := Nat.add_assoc _ _ _
  cases h with
  | raised => exact .inl rfl
  | waited => exact .inl rfl
  | storedLine size addr line u hi hc hread =>
    subst hi
    rw [State.storedLine_eq hread]
    exact .inr (.inl rfl)
  | stacked => exact .inr (.inl hnext)
  | stored => exact .inr (.inl hnext)
  | emitted => exact .inr (.inl hnext)
  | jumped addr hi ho ha => exact .inr (.inr ⟨hi, ho, ha⟩)
  | halted hi =>
    subst hi
    exact .inr (.inl hnext)

/-! ### Run state and fault record -/

/-- `t` has the run state, the stop reason and the fault record of `s`. -/
def State.sameStatus (s t : State) : Prop :=
  t.run = s.run ∧ t.stop = s.stop ∧ t.fault = s.fault ∧ t.faultIp = s.faultIp ∧
    t.faultVal = s.faultVal

/-- The three things an instruction can do to the status (R139, R232). -/
theorem Effect.status_cases (h : Effect i s t) :
    s.sameStatus t ∨ (∃ f info, f ≠ .none ∧ t = s.raise f info) ∨
    (i = .halt ∧ t = (s.advance .halt).endRun .halted) := by
  cases h with
  | raised f info hf => exact .inr (.inl ⟨f, info, hf, rfl⟩)
  | halted hi => exact .inr (.inr ⟨hi, rfl⟩)
  | storedLine size addr line u hi hc hread =>
    rw [State.storedLine_eq hread]
    exact .inl ⟨rfl, rfl, rfl, rfl, rfl⟩
  | _ => exact .inl ⟨rfl, rfl, rfl, rfl, rfl⟩

end Machine

namespace Claims

open Machine

/-- Settles O41: by cases on the effect of a step, no component of the four is written. -/
theorem stepsLeaveStreamErrTraceParams : Obligations.StepsLeaveStreamErrTraceParams := by
  unfold Obligations.StepsLeaveStreamErrTraceParams
  exact fun s t h => (step_effect h).sameFixed

/-- Settles O43: a step appends its trace event and what the instruction emits; no command has output. -/
theorem outputIsOnlyAppended : Obligations.OutputIsOnlyAppended := by
  unfold Obligations.OutputIsOnlyAppended
  exact ⟨fun s t h => (step_effect h).output_appended, hostCommand_output, fun _ => rfl⟩

/-- Settles O44: of the effects of a step only a completing IN takes a line. -/
theorem onlyInReadsALine : Obligations.OnlyInReadsALine := by
  unfold Obligations.OnlyInReadsALine
  intro s t h
  rcases (step_effect h).input_cases with hsame | ⟨size, addr, hdec, hip, hended, hline⟩
  · exact .inl hsame
  · exact .inr ⟨hended, hline, size, addr, hdec, hip⟩

/-- Settles O45: the effects of an instruction, by what they do to `ip`. -/
theorem ipAdvancesExceptByJumps : Obligations.IpAdvancesExceptByJumps := by
  unfold Obligations.IpAdvancesExceptByJumps
  exact fun i s t h => (exec_effect h).ip_cases

/-- Settles O29: the cycle's trace event is emitted at the fetch, before the instruction's events. -/
theorem oneTraceEventPerCycle : Obligations.OneTraceEventPerCycle := by
  unfold Obligations.OneTraceEventPerCycle
  intro s t hr hwait h
  refine ⟨fun hend => (step_effect h).output_eq_of_end fun _ => hend, fun op rest hd => ?_⟩
  have htrace : traceEvents s = if s.trace then [.trace op s.stack.head?] else [] := by
    rw [traceEvents_of_drop hd, hwait, Bool.not_false, Bool.and_true]
    rfl
  exact htrace ▸ (step_effect h).output_eq hr hd

/-- Settles O31: `run` changes at the end of the stream, by HALT and by a raised fault only. -/
theorem runsEndInThreeWays : Obligations.RunsEndInThreeWays := by
  unfold Obligations.RunsEndInThreeWays
  intro s t hr h hstop
  cases step_effect h with
  | stopped hne => exact absurd hr hne
  | ended _ hend => exact .inl ⟨rfl, rfl, hend, rfl⟩
  | undecoded op rest f info _ _ hf => exact .inr (.inr ⟨rfl, rfl, hf, rfl, rfl⟩)
  | ran op rest i t _ hd hdec he =>
    rcases he.status_cases with ⟨hrun, -⟩ | ⟨f, info, hf, rfl⟩ | ⟨rfl, rfl⟩
    · exact absurd (hrun.trans hr) hstop
    · exact .inr (.inr ⟨rfl, rfl, hf, rfl, rfl⟩)
    · exact .inr (.inl ⟨rfl, rfl, rfl, by rw [decodeAt_of_drop hd, hdec]⟩)

end Claims

end Sys2Proof
end

section
/-! PROOF. Noninterference of the trace (44_host_interface.md section 4): states that differ in the trace toggle and
the past output only answer such states, for each shared operation, each instruction and a step. -/

namespace Sys2Proof

namespace Machine

open Claims

variable {s t u : State} {b : Bool} {o : List Event} {size addr : Nat}

/-- The state with another trace toggle and another past output. -/
def State.retraced (s : State) (b : Bool) (o : List Event) : State :=
  { s with trace := b, output := o }

/-- `u` is `t` but for the trace toggle, which is `b`, and the output. -/
def SameBut (b : Bool) (t u : State) : Prop := ∃ o, u = t.retraced b o

/-! ### The shared operations -/

theorem SameBut.withTop {f g : Nat → List Nat → State}
    (h : ∀ a rest, SameBut b (f a rest) (g a rest)) :
    SameBut b (s.withTop f) ((s.retraced b o).withTop g) := by
  cases hs : s.stack with
  | nil =>
    rw [State.withTop_nil hs, State.withTop_nil (s := s.retraced b o) hs]
    exact ⟨o, rfl⟩
  | cons a rest =>
    rw [State.withTop_cons hs, State.withTop_cons (s := s.retraced b o) hs]
    exact h a rest

theorem SameBut.withTopTwo {f g : Nat → Nat → List Nat → State}
    (h : ∀ x a rest, SameBut b (f x a rest) (g x a rest)) :
    SameBut b (s.withTopTwo f) ((s.retraced b o).withTopTwo g) := by
  rcases s.withTopTwo_cases f with ⟨hd, e⟩ | ⟨x, a, rest, hs, e⟩ <;> rw [e]
  · rw [State.withTopTwo_short (s := s.retraced b o) hd]
    exact ⟨o, rfl⟩
  · rw [State.withTopTwo_cons (s := s.retraced b o) hs]
    exact h x a rest

theorem SameBut.ite {t' u' : State} (c : Prop) [Decidable c] (ht : SameBut b t t')
    (hu : SameBut b u u') : SameBut b (if c then t else u) (if c then t' else u') := by
  split
  · exact ht
  · exact hu

theorem SameBut.takeJump : SameBut b (s.takeJump addr) ((s.retraced b o).takeJump addr) :=
  .ite (s.slen < addr) ⟨o, rfl⟩ ⟨o, rfl⟩

theorem SameBut.jumpIf (m : Opcode) (rel : Nat → Nat → Bool) (cmp addr : Nat) :
    SameBut b (s.jumpIf m rel cmp addr) ((s.retraced b o).jumpIf m rel cmp addr) :=
  .withTop fun _ _ => .ite _ .takeJump ⟨o, rfl⟩

theorem SameBut.binop (m : Opcode) (op : Nat → Nat → Nat) :
    SameBut b (s.binop m op) ((s.retraced b o).binop m op) :=
  .withTopTwo fun _ _ _ => ⟨o, rfl⟩

theorem SameBut.divop (m : Opcode) (op : Nat → Nat → Nat) :
    SameBut b (s.divop m op) ((s.retraced b o).divop m op) :=
  .withTopTwo fun _ _ _ => .ite _ ⟨o, rfl⟩ ⟨o, rfl⟩

theorem SameBut.unop (m : Opcode) (op : Nat → Nat) :
    SameBut b (s.unop m op) ((s.retraced b o).unop m op) :=
  .withTop fun _ _ => ⟨o, rfl⟩

theorem SameBut.storeWord (m : Opcode) (addr v : Nat) (rest : List Nat) :
    SameBut b (s.storeWord m addr v rest) ((s.retraced b o).storeWord m addr v rest) := by
  rcases s.storeWord_cases m addr v rest with ⟨hc, e⟩ | ⟨hc, e⟩ <;> rw [e]
  · rw [State.storeWord_beyond (s := s.retraced b o) m v rest hc]
    exact ⟨o, rfl⟩
  · rw [State.storeWord_within (s := s.retraced b o) (n := 1 + m.arity) rfl v rest hc]
    exact ⟨o, by rw [State.advance, Nat.add_assoc]; rfl⟩

/-! ### One instruction -/

/-- The meaning `f` does not read the trace toggle or the past output. -/
def TraceBlind (f : State → Outcome) : Prop :=
  ∀ (s : State) (b : Bool) (o : List Event),
    ∃ t u, f s = .next t ∧ f (s.retraced b o) = .next u ∧ SameBut b t u

theorem execLoad_traceBlind (addr : Nat) : TraceBlind (execLoad addr) := by
  intro s b o
  rcases Nat.lt_or_ge addr s.mem.mlen with hlt | hge
  · cases hfull : s.stackFull with
    | true => exact ⟨_, _, execLoad_full hlt hfull,
        execLoad_full (s := s.retraced b o) hlt hfull, o, rfl⟩
    | false =>
      have hread := Memory.read_eq_some hlt
      exact ⟨_, _, execLoad_room hread hfull, execLoad_room (s := s.retraced b o) hread hfull,
        o, rfl⟩
  · exact ⟨_, _, execLoad_unallocated hge, execLoad_unallocated (s := s.retraced b o) hge, o, rfl⟩

theorem execSload_traceBlind : TraceBlind execSload := by
  intro s b o
  cases hs : s.stack with
  | nil => exact ⟨_, _, execSload_nil hs, execSload_nil (s := s.retraced b o) hs, o, rfl⟩
  | cons addr rest =>
    rcases Nat.lt_or_ge addr s.mem.mlen with hlt | hge
    · have hread := Memory.read_eq_some hlt
      exact ⟨_, _, execSload_allocated hs hread,
        execSload_allocated (s := s.retraced b o) hs hread, o, rfl⟩
    · exact ⟨_, _, execSload_unallocated hs hge,
        execSload_unallocated (s := s.retraced b o) hs hge, o, rfl⟩

/-- A line read finds a line or has to wait (R154). -/
theorem lineAwaited_or_lineRead (s : State) : lineAwaited s ∨ ∃ line inp, lineRead s line inp := by
  rcases s.readLine_cases with ⟨line, rest, hl, -⟩ | ⟨hl, he, hp, -⟩ | ⟨hl, hno, -⟩
  · exact .inr ⟨line, ⟨rest, s.input.ended⟩, .inl ⟨hl, rfl⟩⟩
  · exact .inr ⟨[], s.input, .inr ⟨hl, he, hp, rfl, rfl⟩⟩
  · exact .inl ⟨hl, hno⟩

theorem execIn_traceBlind (size addr : Nat) : TraceBlind (execIn size addr) := by
  intro s b o
  rcases Nat.lt_or_ge (addr + size) s.params.memCap with hc | hc
  · rcases lineAwaited_or_lineRead s with hawait | ⟨line, inp, hread⟩
    · exact ⟨_, _, execIn_wait hc (State.readLine_of_lineAwaited hawait),
        execIn_wait (s := s.retraced b o) hc (State.readLine_of_lineAwaited hawait), o, rfl⟩
    · exact ⟨_, _, execIn_line hc (State.readLine_of_lineRead hread),
        execIn_line (s := s.retraced b o) hc (State.readLine_of_lineRead hread), o, rfl⟩
  · exact ⟨_, _, execIn_overflow hc, execIn_overflow (s := s.retraced b o) hc, o, rfl⟩

/-- No instruction reads the trace toggle or the past output. -/
theorem exec_traceBlind (i : Instr) : TraceBlind (exec i) := by
  intro s b o
  cases i with
  | push v => exact ⟨_, _, rfl, rfl, .ite (s.stackFull = true) ⟨o, rfl⟩ ⟨o, rfl⟩⟩
  | pop => exact ⟨_, _, rfl, rfl, .withTop fun _ _ => ⟨o, rfl⟩⟩
  | add => exact ⟨_, _, rfl, rfl, .binop _ _⟩
  | sub => exact ⟨_, _, rfl, rfl, .binop _ _⟩
  | mul => exact ⟨_, _, rfl, rfl, .binop _ _⟩
  | div => exact ⟨_, _, rfl, rfl, .divop _ _⟩
  | mod => exact ⟨_, _, rfl, rfl, .divop _ _⟩
  | inc => exact ⟨_, _, rfl, rfl, .unop _ _⟩
  | dec => exact ⟨_, _, rfl, rfl, .unop _ _⟩
  | jge cmp addr => exact ⟨_, _, rfl, rfl, .jumpIf _ _ _ _⟩
  | jgt cmp addr => exact ⟨_, _, rfl, rfl, .jumpIf _ _ _ _⟩
  | jle cmp addr => exact ⟨_, _, rfl, rfl, .jumpIf _ _ _ _⟩
  | jlt cmp addr => exact ⟨_, _, rfl, rfl, .jumpIf _ _ _ _⟩
  | jeq cmp addr => exact ⟨_, _, rfl, rfl, .jumpIf _ _ _ _⟩
  | jmp addr => exact ⟨_, _, rfl, rfl, .takeJump⟩
  | out => exact ⟨_, _, rfl, rfl, .withTop fun _ _ => ⟨_, rfl⟩⟩
  | inLine size addr => exact execIn_traceBlind size addr s b o
  | dbg => exact ⟨_, _, rfl, rfl, .withTop fun _ _ => ⟨_, rfl⟩⟩
  | store addr => exact ⟨_, _, rfl, rfl, .withTop fun _ _ => .storeWord _ _ _ _⟩
  | load addr => exact execLoad_traceBlind addr s b o
  | sstore => exact ⟨_, _, rfl, rfl, .withTopTwo fun _ _ _ => .storeWord _ _ _ _⟩
  | sload => exact execSload_traceBlind s b o
  | halt => exact ⟨_, _, rfl, rfl, o, rfl⟩

/-! ### One step -/

/-- The fetch adds its trace event to the output and reads nothing of it (R200). -/
theorem State.fetched_retraced (s : State) (b : Bool) (o : List Event) (op : Nat) :
    (s.retraced b o).fetched op =
      (s.fetched op).retraced b (o ++ if b && !s.waiting then [.trace op s.top] else []) := rfl

theorem step_traceBlind : TraceBlind step := by
  intro s b o
  rcases step_cases s with ⟨hr, e⟩ | ⟨hr, hd, e⟩ |
    ⟨hr, op, rest, hd, ⟨hdec, e⟩ | ⟨_, hdec, e⟩ | ⟨i, hdec, e⟩⟩
  · exact ⟨_, _, e, step_of_not_running (s := s.retraced b o) hr, o, rfl⟩
  · exact ⟨_, _, e, step_at_end (s := s.retraced b o) hr (s.drop_eq_nil_iff.1 hd), o, rfl⟩
  · exact ⟨_, _, e, step_of_decode_invalid (s := s.retraced b o) hr hd hdec, _, rfl⟩
  · exact ⟨_, _, e, step_of_decode_truncated (s := s.retraced b o) hr hd hdec, _, rfl⟩
  · rw [e, step_of_decode_instr (s := s.retraced b o) hr hd hdec, State.fetched_retraced]
    exact exec_traceBlind i _ b _

end Machine

namespace Claims

open Machine

/-- Settles O30: the step is blind to the trace toggle and the past output. -/
theorem traceChangesNothingButOutput : Obligations.TraceChangesNothingButOutput := by
  unfold Obligations.TraceChangesNothingButOutput
  intro s t b o h
  obtain ⟨t', u, ht, hu, o', rfl⟩ := step_traceBlind s b o
  obtain rfl := Host.Outcome.next.inj (ht.symm.trans h)
  exact ⟨_, hu, rfl⟩

end Claims

end Sys2Proof
end

section
/-! PROOF. The causes of the faults (60_exceptions.md sections 1 and 2): for each shared operation and each
instruction, that a fault it raises stands in the table of faults with its cause and information word. -/

namespace Sys2Proof

namespace Machine

open Claims

variable {i : Instr} {s t : State} {f : FaultCode} {v : Nat}

/-- The rows of the fault table that a decoded instruction can raise: the code, the information word, and what
causes it. -/
inductive FaultCause (i : Instr) (s : State) : FaultCode → Nat → Prop where
  /-- too few words on the stack (R240) -/
  | underflow (k : Nat) (hneed : (i.opcode, k) ∈ stackNeed) (hd : s.depth < k) :
      FaultCause i s .stackUnderflow s.depth
  /-- a divisor of 0 (R241) -/
  | divideByZero (a : Nat) (rest : List Nat) (hi : i.opcode ∈ [Opcode.div, .mod])
      (hs : s.stack = 0 :: a :: rest) : FaultCause i s .divideByZero a
  /-- JMP beyond the stream (R137) -/
  | jump (addr : Nat) (hi : i = .jmp addr) (hout : s.slen < addr) :
      FaultCause i s .jumpOutOfRange addr
  /-- a taken conditional jump beyond the stream (R137) -/
  | jumpTaken (mk : Nat → Nat → Instr) (m : Opcode) (n : Nat) (rel : Nat → Nat → Prop)
      (cmp addr top : Nat) (hrow : (mk, m, n, rel) ∈ conditionalJumps) (hi : i = mk cmp addr)
      (hs : s.top = some top) (hrel : rel top cmp) (hout : s.slen < addr) :
      FaultCause i s .jumpOutOfRange addr
  /-- a read beyond `mlen` (R52) -/
  | unallocated (addr : Nat) (hi : i = .load addr ∨ (i = .sload ∧ s.top = some addr))
      (hout : s.mem.mlen ≤ addr) : FaultCause i s .unallocatedRead addr
  /-- a push on a full stack (R246) -/
  | overflow (v : Nat) (hi : i = .push v ∨ i = .load v) (hfull : isFull s) :
      FaultCause i s .stackOverflow v
  /-- a store at or beyond MEM_CAP (R53, R247) -/
  | storeBeyond (addr : Nat) (hi : i = .store addr ∨ (i = .sstore ∧ s.top = some addr))
      (hout : s.params.memCap ≤ addr) : FaultCause i s .memoryOverflow addr
  /-- an IN whose span does not fit (R153) -/
  | lineBeyond (size addr : Nat) (hi : i = .inLine size addr)
      (hout : s.params.memCap ≤ addr + size) : FaultCause i s .memoryOverflow addr

/-- If `t`, answered by `i` in `s`, is FAULTED, its fault record has a cause. -/
def Justified (i : Instr) (s t : State) : Prop := t.run = .faulted → FaultCause i s t.fault t.faultVal

/-! ### The shared operations -/

theorem Justified.raise (h : FaultCause i s f v) : Justified i s (s.raise f v) := fun _ => h

/-- What does not write `run` faults nobody. -/
theorem Justified.of_run_eq (hs : s.run ≠ .faulted) (ht : t.run = s.run) : Justified i s t :=
  fun hf => absurd (ht.symm.trans hf) hs

theorem Justified.withTop {g : Nat → List Nat → State} (hneed : (i.opcode, 1) ∈ stackNeed)
    (h : ∀ a rest, s.stack = a :: rest → Justified i s (g a rest)) :
    Justified i s (s.withTop g) := by
  rcases s.withTop_cases g with ⟨hs, e⟩ | ⟨a, rest, hs, e⟩ <;> rw [e]
  · have hzero : s.depth = 0 := List.length_eq_zero_iff.2 hs
    have hcause := FaultCause.underflow (s := s) 1 hneed (hzero ▸ Nat.one_pos)
    exact .raise (hzero ▸ hcause)
  · exact h a rest hs

theorem Justified.withTopTwo {g : Nat → Nat → List Nat → State} (hneed : (i.opcode, 2) ∈ stackNeed)
    (h : ∀ b a rest, s.stack = b :: a :: rest → Justified i s (g b a rest)) :
    Justified i s (s.withTopTwo g) := by
  rcases s.withTopTwo_cases g with ⟨hd, e⟩ | ⟨b, a, rest, hs, e⟩ <;> rw [e]
  · exact .raise (.underflow 2 hneed hd)
  · exact h b a rest hs

theorem Justified.binop (hr : s.run ≠ .faulted) (hneed : (i.opcode, 2) ∈ stackNeed) (m : Opcode)
    (op : Nat → Nat → Nat) : Justified i s (s.binop m op) :=
  .withTopTwo hneed fun _ _ _ _ => .of_run_eq hr rfl

theorem Justified.unop (hr : s.run ≠ .faulted) (hneed : (i.opcode, 1) ∈ stackNeed) (m : Opcode)
    (op : Nat → Nat) : Justified i s (s.unop m op) :=
  .withTop hneed fun _ _ _ => .of_run_eq hr rfl

theorem Justified.divop (hr : s.run ≠ .faulted) (hneed : (i.opcode, 2) ∈ stackNeed)
    (hi : i.opcode ∈ [Opcode.div, .mod]) (m : Opcode) (op : Nat → Nat → Nat) :
    Justified i s (s.divop m op) := by
  refine .withTopTwo hneed fun b a rest hs => ?_
  split
  · next hb => exact .raise (.divideByZero a rest hi (hb ▸ hs))
  · exact .of_run_eq hr rfl

theorem Justified.takeJump {addr : Nat} (hr : s.run ≠ .faulted)
    (h : s.slen < addr → FaultCause i s .jumpOutOfRange addr) : Justified i s (s.takeJump addr) := by
  rcases s.takeJump_cases addr with ⟨hout, e⟩ | ⟨-, e⟩ <;> rw [e]
  · exact .raise (h hout)
  · exact .of_run_eq hr rfl

theorem Justified.storeWord {addr : Nat} (hr : s.run ≠ .faulted)
    (hi : i = .store addr ∨ (i = .sstore ∧ s.top = some addr)) (m : Opcode) (v : Nat)
    (rest : List Nat) : Justified i s (s.storeWord m addr v rest) := by
  rcases s.storeWord_cases m addr v rest with ⟨hout, e⟩ | ⟨-, e⟩ <;> rw [e]
  · exact .raise (.storeBeyond addr hi hout)
  · exact .of_run_eq hr rfl

/-! ### The instructions -/

/-- The rows of the table of conditional jumps need one stack word (R130, R240). -/
theorem stackNeed_of_mem_conditionalJumps {mk : Nat → Nat → Instr} {m : Opcode} {n : Nat}
    {rel : Nat → Nat → Prop} (h : (mk, m, n, rel) ∈ conditionalJumps) (cmp addr : Nat) :
    ((mk cmp addr).opcode, 1) ∈ stackNeed := by
  simp only [conditionalJumps, List.mem_cons, List.not_mem_nil, or_false, Prod.mk.injEq] at h
  rcases h with ⟨rfl, -⟩ | ⟨rfl, -⟩ | ⟨rfl, -⟩ | ⟨rfl, -⟩ | ⟨rfl, -⟩ <;>
    simp [stackNeed, Instr.opcode]

/-- The shared rule looks at the target only when the comparison holds (R130). -/
theorem conditionalJump_justified {mk : Nat → Nat → Instr} {m : Opcode} {n : Nat}
    {rel : Nat → Nat → Prop} (hrow : (mk, m, n, rel) ∈ conditionalJumps) {cmp addr : Nat}
    (hr : s.run ≠ .faulted) (h : exec (mk cmp addr) s = .next t) : Justified (mk cmp addr) s t := by
  obtain ⟨cond, hrule⟩ := followsJumpRule_of_mem_conditionalJumps hrow
  obtain rfl := Host.Outcome.next.inj ((hrule.exec_eq cmp addr s).symm.trans h)
  refine .withTop (stackNeed_of_mem_conditionalJumps hrow cmp addr) fun top rest hs => ?_
  split
  · next hc =>
    have htop : s.top = some top := by rw [State.top, hs, List.head?_cons]
    exact .takeJump hr (.jumpTaken mk m n rel cmp addr top hrow rfl htop ((hrule.cond_iff _ _).1 hc))
  · exact .of_run_eq hr rfl

theorem execLoad_justified {addr : Nat} (hr : s.run ≠ .faulted)
    (h : execLoad addr s = .next t) : Justified (.load addr) s t := by
  rcases Nat.lt_or_ge addr s.mem.mlen with hlt | hge
  · cases hfull : s.stackFull with
    | true =>
      obtain rfl := Host.Outcome.next.inj ((execLoad_full hlt hfull).symm.trans h)
      exact .raise (.overflow addr (.inr rfl) (s.stackFull_iff.1 hfull))
    | false =>
      have hread := Memory.read_eq_some hlt
      obtain rfl := Host.Outcome.next.inj ((execLoad_room hread hfull).symm.trans h)
      exact .of_run_eq hr rfl
  · obtain rfl := Host.Outcome.next.inj ((execLoad_unallocated hge).symm.trans h)
    exact .raise (.unallocated addr (.inl rfl) hge)

theorem execSload_justified (hr : s.run ≠ .faulted) (h : execSload s = .next t) :
    Justified .sload s t := by
  obtain rfl := Host.Outcome.next.inj h
  refine .withTop (by decide) fun addr rest hs => ?_
  have htop : s.top = some addr := by rw [State.top, hs, List.head?_cons]
  rcases Nat.lt_or_ge addr s.mem.mlen with hlt | hge
  · rw [Memory.read_eq_some hlt]
    exact .of_run_eq hr rfl
  · rw [Memory.read_eq_none hge]
    exact .raise (.unallocated addr (.inr ⟨rfl, htop⟩) hge)

theorem execIn_justified {size addr : Nat} (hr : s.run ≠ .faulted)
    (h : execIn size addr s = .next t) : Justified (.inLine size addr) s t := by
  rcases Nat.lt_or_ge (addr + size) s.params.memCap with hc | hc
  · rcases lineAwaited_or_lineRead s with hawait | ⟨line, inp, hread⟩
    · obtain rfl := Host.Outcome.next.inj
        ((execIn_wait hc (State.readLine_of_lineAwaited hawait)).symm.trans h)
      exact .of_run_eq hr rfl
    · obtain rfl := Host.Outcome.next.inj
        ((execIn_line hc (State.readLine_of_lineRead hread)).symm.trans h)
      exact .of_run_eq hr rfl
  · obtain rfl := Host.Outcome.next.inj ((execIn_overflow hc).symm.trans h)
    exact .raise (.lineBeyond size addr rfl hc)

theorem execPush_justified {v : Nat} (hr : s.run ≠ .faulted) (h : execPush v s = .next t) :
    Justified (.push v) s t := by
  obtain rfl := Host.Outcome.next.inj h
  split
  · next hfull => exact .raise (.overflow v (.inl rfl) (s.stackFull_iff.1 hfull))
  · exact .of_run_eq hr rfl

/-- Every fault of an instruction has a cause in the table. -/
theorem exec_justified (hr : s.run ≠ .faulted) (h : exec i s = .next t) : Justified i s t := by
  cases i with
  | push v => exact execPush_justified hr h
  | pop =>
    obtain rfl := Host.Outcome.next.inj h
    exact .withTop (by decide) fun _ _ _ => .of_run_eq hr rfl
  | add => exact Host.Outcome.next.inj h ▸ .binop hr (by decide) _ _
  | sub => exact Host.Outcome.next.inj h ▸ .binop hr (by decide) _ _
  | mul => exact Host.Outcome.next.inj h ▸ .binop hr (by decide) _ _
  | div => exact Host.Outcome.next.inj h ▸ .divop hr (by decide) (by decide) _ _
  | mod => exact Host.Outcome.next.inj h ▸ .divop hr (by decide) (by decide) _ _
  | inc => exact Host.Outcome.next.inj h ▸ .unop hr (by decide) _ _
  | dec => exact Host.Outcome.next.inj h ▸ .unop hr (by decide) _ _
  | jge cmp addr =>
    exact conditionalJump_justified (mk := .jge) (List.mem_of_getElem? (i := 0) rfl) hr h
  | jgt cmp addr =>
    exact conditionalJump_justified (mk := .jgt) (List.mem_of_getElem? (i := 1) rfl) hr h
  | jle cmp addr =>
    exact conditionalJump_justified (mk := .jle) (List.mem_of_getElem? (i := 2) rfl) hr h
  | jlt cmp addr =>
    exact conditionalJump_justified (mk := .jlt) (List.mem_of_getElem? (i := 3) rfl) hr h
  | jeq cmp addr =>
    exact conditionalJump_justified (mk := .jeq) (List.mem_of_getElem? (i := 4) rfl) hr h
  | jmp addr => exact Host.Outcome.next.inj h ▸ .takeJump hr (.jump addr rfl)
  | out =>
    obtain rfl := Host.Outcome.next.inj h
    exact .withTop (by decide) fun _ _ _ => .of_run_eq hr rfl
  | inLine size addr => exact execIn_justified hr h
  | dbg =>
    obtain rfl := Host.Outcome.next.inj h
    exact .withTop (by decide) fun _ _ _ => .of_run_eq hr rfl
  | store addr =>
    obtain rfl := Host.Outcome.next.inj h
    exact .withTop (by simp [stackNeed, Instr.opcode]) fun a rest _ =>
      .storeWord hr (.inl rfl) .store a rest
  | load addr => exact execLoad_justified hr h
  | sstore =>
    obtain rfl := Host.Outcome.next.inj h
    exact .withTopTwo (by decide) fun addr a rest hs =>
      .storeWord hr (.inr ⟨rfl, by rw [State.top, hs, List.head?_cons]⟩) .sstore a rest
  | sload => exact execSload_justified hr h
  | halt => exact fun hf => nomatch Host.Outcome.next.inj h ▸ hf

end Machine

namespace Claims

open Machine

/-- Settles O23: the cause that `exec_justified` finds, as a row of the statement's table. -/
theorem faultsHaveTheirCauses : Obligations.FaultsHaveTheirCauses := by
  unfold Obligations.FaultsHaveTheirCauses
  intro i s t hr h hf
  have hcause : FaultCause i s t.fault t.faultVal := exec_justified (by simp [hr]) h hf
  generalize t.fault = f, t.faultVal = v at hcause
  cases hcause with
  | underflow k hneed hd => exact .inl ⟨rfl, rfl, k, hneed, hd⟩
  | divideByZero a rest hi hs => exact .inr (.inl ⟨rfl, hi, rest, hs⟩)
  | jump addr hi hout => exact .inr (.inr (.inl ⟨rfl, hout, .inl hi⟩))
  | jumpTaken mk m n rel cmp addr top hrow hi hs hrel hout =>
    exact .inr (.inr (.inl ⟨rfl, hout, .inr ⟨mk, m, n, rel, cmp, top, hrow, hi, hs, hrel⟩⟩))
  | unallocated addr hi hout => exact .inr (.inr (.inr (.inl ⟨rfl, hout, hi⟩)))
  | overflow v hi hfull => exact .inr (.inr (.inr (.inr (.inl ⟨rfl, hfull, hi⟩))))
  | storeBeyond addr hi hout => exact .inr (.inr (.inr (.inr (.inr ⟨rfl, .inl ⟨hout, hi⟩⟩))))
  | lineBeyond size addr hi hout =>
    exact .inr (.inr (.inr (.inr (.inr ⟨rfl, .inr ⟨size, hi, hout⟩⟩))))

end Claims

end Sys2Proof
end

section
/-! PROOF. The invariant `State.Inv` (10_state.md, 20_memory.md section 2): each part of it is kept by an
instruction, the whole by a step, by the host commands and by the events from outside. -/

namespace Sys2Proof

/-! ### Words of a legal build -/

variable {p : Params}

theorem Params.opcodeNumber_lt (hp : p.Valid) (m : Opcode) : p.opcodeNumber m < 2 ^ p.W := by
  obtain ⟨-, ⟨hl, -, hlt⟩, -⟩ := hp
  exact hlt _ ((Params.mem_opc_iff hl).2 ⟨m, rfl⟩)

/-- A legal width is a number of bytes (R7). -/
theorem Params.exists_W_eq (hp : p.Valid) : ∃ B, p.W = 8 * B :=
  Nat.dvd_of_mod_eq_zero hp.1.1

/-- An instruction is well formed when its operands are words (R87). -/
theorem Instr.wellFormed_iff (p : Params) (i : Instr) :
    i.wellFormed p = true ↔ ∀ o ∈ i.operands, o < 2 ^ p.W := by
  cases i <;> simp [Instr.wellFormed, Instr.operands]

theorem encode_lt (hp : p.Valid) {i : Instr} (hi : i.wellFormed p = true) :
    ∀ w ∈ encode p i, w < 2 ^ p.W := by
  simpa [encode] using ⟨Params.opcodeNumber_lt hp i.opcode, (i.wellFormed_iff p).1 hi⟩

namespace Machine

variable {i : Instr} {s t : State} {m : Memory} {W : Nat}

theorem pack_lt_of_valid (hp : p.Valid) (cs : List Byte) : ∀ w ∈ pack p.W cs, w < 2 ^ p.W := by
  obtain ⟨B, hB⟩ := Params.exists_W_eq hp
  rw [hB]
  exact pack_lt B cs

/-- The words LOAD reads are words, whatever the bytes (R205). -/
theorem bodyWords_lt_of_valid (hp : p.Valid) (body : List Byte) :
    ∀ w ∈ bodyWords p.W body, w < 2 ^ p.W := by
  obtain ⟨B, hB⟩ := Params.exists_W_eq hp
  rw [hB]
  intro w hw
  obtain ⟨j, -, rfl⟩ := List.mem_map.1 hw
  exact joinBytes_lt B _

/-! ### Words in memory -/

theorem Memory.read_lt (hm : ∀ c ∈ m.cells, c.2 < 2 ^ W) {a v : Nat} (h : m.read a = some v) :
    v < 2 ^ W := by
  have hlt : a < m.mlen := by
    by_contra hge
    exact nomatch (Memory.read_eq_none (Nat.le_of_not_lt hge)).symm.trans h
  obtain rfl : readCell a m.cells = v :=
    Option.some.inj ((Memory.read_eq_some hlt).symm.trans h)
  by_cases hzero : readCell a m.cells = 0
  · rw [hzero]
    exact Nat.two_pow_pos W
  · exact hm _ (mem_of_readCell_ne_zero hzero)

theorem Memory.write_lt (hm : ∀ c ∈ m.cells, c.2 < 2 ^ W) (a : Nat) {v : Nat} (hv : v < 2 ^ W) :
    ∀ c ∈ (m.write a v).cells, c.2 < 2 ^ W := by
  intro c hc
  rcases mem_writeCell hc with ⟨rfl, -⟩ | hc
  · exact hv
  · exact hm c hc

theorem Memory.storeLine_lt (hm : ∀ c ∈ m.cells, c.2 < 2 ^ W) (size addr : Nat)
    {line : List Byte} (hline : ∀ w ∈ pack W line, w < 2 ^ W) :
    ∀ c ∈ (m.storeLine W size addr line).cells, c.2 < 2 ^ W := by
  refine Memory.write_lt (fun c hc => ?_) _ (Nat.two_pow_pos W)
  rcases Memory.mem_writeSpan hc with hc | hc
  · exact hline _ (List.mem_of_mem_take hc)
  · exact hm c hc

/-! ### What one instruction keeps -/

theorem Effect.mem_wf (h : Effect i s t) (hs : s.mem.wf) : t.mem.wf := by
  cases h with
  | storedLine size addr line u hi hc hread =>
    rw [State.storedLine_eq hread]
    exact Memory.storeLine_wf hs _ _ _ _
  | stored addr v rest => exact Memory.write_wf hs addr v
  | _ => exact hs

theorem Effect.stack_lt (h : Effect i s t) (hs : s.wordsInRange)
    (hops : ∀ o ∈ i.operands, o < 2 ^ s.params.W) : ∀ w ∈ t.stack, w < 2 ^ s.params.W := by
  obtain ⟨-, hstack, hcells⟩ := hs
  cases h with
  | stacked st hd hw =>
    intro w hmem
    rcases hw w hmem with ⟨a, ha, hle⟩ | hlt | hop | ⟨a, ha⟩
    · exact lt_of_le_of_lt hle (hstack a ha)
    · exact hlt
    · exact hops w hop
    · exact Memory.read_lt hcells ha
  | stored addr v rest hi ha hv hr => exact fun w hmem => hstack w (hr.subset hmem)
  | storedLine size addr line u hi hc hread =>
    rw [State.storedLine_eq hread]
    exact hstack
  | _ => exact hstack

theorem Effect.cells_lt (h : Effect i s t) (hp : s.params.Valid) (hs : s.wordsInRange) :
    ∀ c ∈ t.mem.cells, c.2 < 2 ^ s.params.W := by
  obtain ⟨-, hstack, hcells⟩ := hs
  cases h with
  | stored addr v rest hi ha hv => exact Memory.write_lt hcells addr (hstack v hv)
  | storedLine size addr line u hi hc hread =>
    rw [State.storedLine_eq hread]
    exact Memory.storeLine_lt hcells size addr (pack_lt_of_valid hp line)
  | _ => exact hcells

theorem Effect.depth_le (h : Effect i s t) (hs : s.withinCaps) :
    ∀ cap ∈ s.params.stackCap, t.depth ≤ cap := by
  obtain ⟨-, hdepth, -⟩ := hs
  cases h with
  | stacked st hd =>
    intro cap hcap
    rcases hd with hle | ⟨heq, hroom⟩
    · exact hle.trans (hdepth cap hcap)
    · exact heq.trans_le (s.stackFull_eq_false_iff.1 hroom cap hcap)
  | stored addr v rest hi ha hv hr => exact fun cap hcap => hr.length_le.trans (hdepth cap hcap)
  | storedLine size addr line u hi hc hread =>
    rw [State.storedLine_eq hread]
    exact hdepth
  | _ => exact hdepth

theorem Effect.mlen_le (h : Effect i s t) (hs : s.withinCaps) : t.mem.mlen ≤ s.params.memCap := by
  obtain ⟨-, -, hmlen⟩ := hs
  cases h with
  | stored addr v rest hi ha => exact Nat.max_le.2 ⟨hmlen, ha⟩
  | storedLine size addr line u hi hc hread =>
    rw [State.storedLine_eq hread, State.lineDone, Memory.storeLine_mlen]
    exact Nat.max_le.2 ⟨hmlen, hc⟩
  | _ => exact hmlen

/-- `ip` stays inside the stream when the whole instruction does (R24). -/
theorem Effect.ip_le (h : Effect i s t) (hlen : s.ip + i.length ≤ s.slen) : t.ip ≤ s.slen := by
  rcases h.ip_cases with e | e | ⟨-, -, hle⟩
  · rw [e]
    exact (Nat.le_add_right _ _).trans hlen
  · rw [e]
    exact hlen
  · exact hle

/-! ### The status -/

theorem State.fault_eq_none (hs : s.statusCoherent) (hr : s.run ≠ .faulted) : s.fault = .none := by
  obtain ⟨hfault, -⟩ := hs
  exact not_not.1 (mt hfault.2 hr)

theorem State.raise_statusCoherent (s : State) {f : FaultCode} (hf : f ≠ .none) (info : Nat) :
    (s.raise f info).statusCoherent := by
  simp [State.statusCoherent, hf]

/-- A run that ends without a fault leaves an IDLE engine with an empty fault record. -/
theorem State.endRun_statusCoherent (hs : s.statusCoherent) (hr : s.run = .running) {r : StopReason}
    (hstop : r ≠ .fault) : (s.endRun r).statusCoherent := by
  have hnone := State.fault_eq_none hs (by simp [hr])
  obtain ⟨-, -, -, hrecord, -⟩ := hs
  simp [State.statusCoherent, hnone, hstop, hrecord hnone]

/-- In a running engine only `waiting` and `ip` can change besides, and neither can break the status. -/
theorem State.sameStatus.statusCoherent (h : s.sameStatus t) (hs : s.statusCoherent)
    (hr : s.run = .running) : t.statusCoherent := by
  obtain ⟨hrun, hstop, hfault, hip, hval⟩ := h
  have hnone := State.fault_eq_none hs (by simp [hr])
  obtain ⟨-, -, -, hrecord, hnostop, -⟩ := hs
  simp [State.statusCoherent, hrun, hstop, hfault, hip, hval, hr, hnone, hrecord hnone, hnostop hr]

theorem Effect.statusCoherent (h : Effect i s t) (hs : s.statusCoherent) (hr : s.run = .running) :
    t.statusCoherent := by
  rcases h.status_cases with hsame | ⟨f, info, hf, rfl⟩ | ⟨-, rfl⟩
  · exact hsame.statusCoherent hs hr
  · exact s.raise_statusCoherent hf info
  · have hsame : s.sameStatus (s.advance .halt) := ⟨rfl, rfl, rfl, rfl, rfl⟩
    exact State.endRun_statusCoherent (hsame.statusCoherent hs hr) hr (by simp)

/-! ### The invariant along a step -/

theorem State.raise_inv (hs : s.Inv) {f : FaultCode} (hf : f ≠ .none) (info : Nat) :
    (s.raise f info).Inv := by
  obtain ⟨hp, hmem, hwords, hcaps, hip, -, herr⟩ := hs
  exact ⟨hp, hmem, hwords, hcaps, hip, s.raise_statusCoherent hf info, herr⟩

theorem State.endRun_inv (hs : s.Inv) (hr : s.run = .running) {r : StopReason} (hstop : r ≠ .fault) :
    (s.endRun r).Inv := by
  obtain ⟨hp, hmem, hwords, hcaps, hip, hstatus, herr⟩ := hs
  exact ⟨hp, hmem, hwords, hcaps, hip, State.endRun_statusCoherent hstatus hr hstop, herr⟩

theorem State.fetched_inv (hs : s.Inv) (hr : s.run = .running) (op : Nat) : (s.fetched op).Inv := by
  obtain ⟨hp, hmem, hwords, hcaps, hip, hstatus, herr⟩ := hs
  have hsame : s.sameStatus (s.fetched op) := ⟨rfl, rfl, rfl, rfl, rfl⟩
  exact ⟨hp, hmem, hwords, hcaps, hip, hsame.statusCoherent hstatus hr, herr⟩

/-- An instruction that lies inside the stream keeps the invariant of a running engine. -/
theorem Effect.inv (h : Effect i s t) (hs : s.Inv) (hr : s.run = .running)
    (hlen : s.ip + i.length ≤ s.slen) (hops : ∀ o ∈ i.operands, o < 2 ^ s.params.W) : t.Inv := by
  obtain ⟨hp, hmem, hwords, hcaps, hip, hstatus, herr⟩ := hs
  obtain ⟨estream, eerr, -, eparams⟩ := h.sameFixed
  have eslen : t.slen = s.slen := congrArg List.length estream
  refine ⟨eparams ▸ hp, h.mem_wf hmem, ⟨?_, ?_, ?_⟩, ⟨?_, ?_, ?_⟩, ?_,
    h.statusCoherent hstatus hr, eerr ▸ herr⟩
  · rw [estream, eparams]
    exact hwords.1
  · rw [eparams]
    exact h.stack_lt hwords hops
  · rw [eparams]
    exact h.cells_lt hp hwords
  · rw [eslen, eparams]
    exact hcaps.1
  · rw [eparams]
    exact h.depth_le hcaps
  · rw [eparams]
    exact h.mlen_le hcaps
  · rw [eslen]
    exact h.ip_le hlen

/-- A decoded instruction lies inside the stream (R91). -/
theorem ip_add_length_le {op : Nat} {rest : List Nat} (hd : s.stream.drop s.ip = op :: rest)
    (hdec : decode s.params op rest = .instr i) : s.ip + i.length ≤ s.slen := by
  obtain ⟨-, -, harity⟩ := opcodeNumber_operands_of_decode hdec
  have hlen : s.slen - s.ip = rest.length + 1 := by
    rw [State.slen, ← List.length_drop, hd, List.length_cons]
  rw [Instr.length]
  omega

theorem StepEffect.inv (h : StepEffect s t) (hs : s.Inv) : t.Inv := by
  cases h with
  | stopped => exact hs
  | ended hr => exact State.endRun_inv hs hr (by simp)
  | undecoded op rest f info hr hd hf => exact State.raise_inv (State.fetched_inv hs hr op) hf info
  | ran op rest i t hr hd hdec he =>
    refine he.inv (State.fetched_inv hs hr op) hr (ip_add_length_le hd hdec) fun o ho => ?_
    obtain ⟨-, hops, -⟩ := opcodeNumber_operands_of_decode hdec
    have hrest : o ∈ s.stream.drop s.ip := hd ▸ .tail _ (List.mem_of_mem_take (hops ▸ ho))
    obtain ⟨-, -, ⟨hstream, -⟩, -⟩ := hs
    exact hstream o (List.mem_of_mem_drop hrest)

/-! ### The invariant under the host commands -/

theorem State.appendWords_inv (hs : s.Inv) {ws : List Nat} (hws : ∀ w ∈ ws, w < 2 ^ s.params.W) :
    (s.appendWords ws).2.Inv := by
  rcases s.appendWords_cases ws with ⟨-, e⟩ | ⟨hfit, e⟩ <;> rw [e]
  · exact hs
  · obtain ⟨hp, hmem, ⟨hstream, hwords⟩, ⟨-, hcaps⟩, hip, hstatus, herr⟩ := hs
    refine ⟨hp, hmem, ⟨fun w hw => ?_, hwords⟩, ⟨?_, hcaps⟩, ?_, hstatus, herr⟩
    · exact (List.mem_append.1 hw).elim (hstream w) (hws w)
    · rw [State.slen, List.length_append]
      exact hfit
    · rw [State.slen, List.length_append]
      exact Nat.le_add_right_of_le hip

theorem State.withErr_inv (hs : s.Inv) {e : ErrorState} (he : e ≠ .invalidInstruction) :
    State.Inv { s with err := e } := by
  obtain ⟨hp, hmem, hwords, hcaps, hip, hstatus, -⟩ := hs
  exact ⟨hp, hmem, hwords, hcaps, hip, hstatus, he⟩

theorem State.save_inv (hs : s.Inv) (sink : Sink) : (s.save sink).2.Inv := by
  cases sink with
  | ok => exact hs
  | openFailed => exact State.withErr_inv hs (by simp)

theorem State.load_inv (hs : s.Inv) (src : Source) : (s.load src).2.Inv := by
  rcases s.load_cases src with ⟨e, -, he, e'⟩ | ⟨bs, -, -, e'⟩ <;> rw [e']
  · exact State.withErr_inv hs he
  · exact State.appendWords_inv hs (bodyWords_lt_of_valid hs.1 _)

/-- EXECUTE starts an engine that holds no fault (R193). -/
theorem State.startRun_inv (hs : s.Inv) (hr : s.run ≠ .faulted) : s.startRun.Inv := by
  obtain ⟨hp, hmem, hwords, hcaps, hip, hstatus, herr⟩ := hs
  have hnone := State.fault_eq_none hstatus hr
  obtain ⟨-, -, -, hrecord, -⟩ := hstatus
  exact ⟨hp, hmem, hwords, hcaps, hip,
    by simp [State.statusCoherent, hnone, hrecord hnone], herr⟩

theorem State.resetEngine_inv (hs : s.Inv) : s.resetEngine.Inv := by
  obtain ⟨hp, -, ⟨hstream, -⟩, ⟨hslen, -⟩, -⟩ := hs
  exact ⟨hp, Memory.wf_empty, ⟨hstream, by simp, by simp⟩,
    ⟨hslen, by simp [State.depth], by simp⟩, Nat.zero_le _,
    by simp [State.statusCoherent], by simp⟩

theorem State.clearEngine_inv (hs : s.Inv) : s.clearEngine.Inv := by
  obtain ⟨hp, hmem, ⟨-, hwords⟩, ⟨-, hcaps⟩, -, hstatus, herr⟩ := State.resetEngine_inv hs
  exact ⟨hp, hmem, ⟨by simp, hwords⟩, ⟨by simp [State.slen], hcaps⟩, Nat.zero_le _, hstatus, herr⟩

theorem State.perform_inv (hs : s.Inv) {c : Command} (hacc : c.accepted s.run = true)
    (hwf : c.wellFormed s.params = true) : (s.perform c).2.Inv := by
  cases c with
  | emit i => exact State.appendWords_inv hs (encode_lt hs.1 hwf)
  | execute =>
    refine State.startRun_inv hs fun hf => ?_
    rw [hf] at hacc
    exact nomatch hacc
  | clear => exact State.clearEngine_inv hs
  | reset => exact State.resetEngine_inv hs
  | save sink => exact State.save_inv hs sink
  | load src => exact State.load_inv hs src
  | _ => exact hs

theorem hostCommand_inv (hs : s.Inv) (c : Command) : (hostCommand c s).2.Inv := by
  rcases hostCommand_cases c s with ⟨-, e⟩ | ⟨hacc, hwf, e⟩ <;> rw [e]
  · exact hs
  · exact State.perform_inv hs hacc hwf

end Machine

namespace Claims

open Machine

/-- Settles O38: each part of the invariant is kept by every effect of an instruction. -/
theorem stepKeepsTheInvariant : Obligations.StepKeepsTheInvariant := by
  unfold Obligations.StepKeepsTheInvariant
  exact fun s t hs h => (step_effect h).inv hs

/-- Settles O40: host commands append words, write `err` or reset; lines, the end of the input and the
trace toggle are no part of the invariant. -/
theorem outsideEventsKeepTheInvariant : Obligations.OutsideEventsKeepTheInvariant := by
  unfold Obligations.OutsideEventsKeepTheInvariant
  exact fun s hs => ⟨hostCommand_inv hs, fun _ => hs, hs, State.clearEngine_inv (s := s) hs⟩

/-- Settles O39: the state at reset is a closed term. -/
theorem resetMeetsTheInvariant : Obligations.ResetMeetsTheInvariant := by
  unfold Obligations.ResetMeetsTheInvariant
  decide

end Claims

end Sys2Proof
end

section
/-! PROOF. SAVE and LOAD as inverses (44_host_interface.md section 5): the words read from the bytes that a stream
was saved as are that stream. -/

namespace Sys2Proof

namespace Machine

variable {B w : Nat}

theorem unpack_length (B w : Nat) : (unpack (8 * B) w).length = B := by
  rw [unpack, List.length_map, List.length_range, Nat.mul_div_cancel_left B (by norm_num)]

/-- The first bytes of a body are its first word, the others its other words (R205). -/
theorem bodyWords_unpack_append (hB : 0 < B) (hw : w < 2 ^ (8 * B)) (body : List Byte) :
    bodyWords (8 * B) (unpack (8 * B) w ++ body) = w :: bodyWords (8 * B) body := by
  have hdiv : 8 * B / 8 = B := Nat.mul_div_cancel_left B (by norm_num)
  have hnext : ∀ j, (unpack (8 * B) w ++ body).drop ((j + 1) * B) = body.drop (j * B) := by
    intro j
    rw [Nat.succ_mul, Nat.add_comm, ← List.drop_drop, List.drop_left' (unpack_length B w)]
  simp only [bodyWords, hdiv, List.length_append, unpack_length, Nat.add_div_left _ hB,
    List.range_succ_eq_map, List.map_cons, List.map_map, Nat.zero_mul, List.drop_zero,
    joinBytes_unpack hw, Function.comp_def, Nat.succ_eq_add_one, hnext]

theorem bodyWords_flatMap_unpack (hB : 0 < B) {ws : List Nat} (hws : ∀ w ∈ ws, w < 2 ^ (8 * B)) :
    bodyWords (8 * B) (ws.flatMap (unpack (8 * B))) = ws := by
  induction ws with
  | nil => simp [bodyWords]
  | cons w ws ih =>
    obtain ⟨hw, hrest⟩ := List.forall_mem_cons.1 hws
    rw [List.flatMap_cons, bodyWords_unpack_append hB hw, ih hrest]

/-- The body of a saved stream gives the stream back (R203, R205). -/
theorem bodyWords_fileBytes {p : Params} (hp : p.Valid) {ws : List Nat}
    (hws : ∀ w ∈ ws, w < 2 ^ p.W) : bodyWords p.W ((fileBytes p ws).drop 18) = ws := by
  obtain ⟨B, hB⟩ := Params.exists_W_eq hp
  obtain ⟨⟨-, hW, -⟩, -⟩ := hp
  rw [fileBytes, List.drop_left' (fileHeader_length p)]
  rw [hB] at hws hW ⊢
  exact bodyWords_flatMap_unpack (by omega) hws

end Machine

namespace Claims

open Machine

/-- Settles O55: the header check answers by the width, and the body is `bodyWords_fileBytes`. -/
theorem saveThenLoadReproducesTheStream : Obligations.SaveThenLoadReproducesTheStream := by
  unfold Obligations.SaveThenLoadReproducesTheStream
  intro s t bs hs hsr ht htr hversion hsave
  have hbytes : hostCommand (.save .ok) s = (.bytes (fileBytes s.params s.stream), s) :=
    hostCommand_idle hsr rfl
  obtain rfl : fileBytes s.params s.stream = bs := by
    rw [hbytes] at hsave
    exact Response.bytes.inj hsave
  have hload : ∀ bs, hostCommand (.load (.bytes bs)) t = t.load (.bytes bs) :=
    fun _ => hostCommand_idle htr rfl
  obtain ⟨hsp, -, ⟨hstream, -⟩, -⟩ := hs
  obtain ⟨htp, -⟩ := ht
  obtain ⟨⟨hsdvd, -, hsW⟩, -⟩ := id hsp
  have hv : (fileBytes s.params s.stream)[0]? = some t.params.bcVersion :=
    hversion ▸ fileBytes_version s.params s.stream
  have hsize := fileBytes_wordSize hsW s.stream
  rw [hload]
  refine ⟨fun hW hempty hfit => ?_, fun hW => State.load_bad (headerError_wordSize hv ?_)⟩
  · rw [State.load_good (headerError_none hv (hW ▸ hsize)), hW, bodyWords_fileBytes hsp hstream,
      State.appendWords_fits, hempty, List.nil_append]
    rwa [State.slen, hempty, List.length_nil, Nat.zero_add]
  · obtain ⟨⟨htdvd, -⟩, -⟩ := htp
    rw [hsize, ne_eq, Option.some.injEq]
    omega

end Claims

end Sys2Proof
end

section
/-! PROOF. Digits of a number, most significant first (42_io.md section 4, 30_encoding.md R100): the digits that DBG
prints and that a listing writes are those of the library, and give the number back. -/

namespace Sys2Proof

namespace Machine

open Claims

variable {b v d : Nat}

/-! ### Digits in a base -/

/-- The digits of `v` in base `b`, most significant first, at least one. -/
def baseDigits (b v : Nat) : List Nat := if v = 0 then [0] else (Nat.digits b v).reverse

theorem baseDigits_ne_nil (b v : Nat) : baseDigits b v ≠ [] := by
  unfold baseDigits
  split
  · simp
  · next hv => simpa [Nat.digits_ne_nil_iff_ne_zero] using hv

theorem lt_of_mem_baseDigits (hb : 1 < b) (h : d ∈ baseDigits b v) : d < b := by
  unfold baseDigits at h
  split at h
  · rw [List.mem_singleton.1 h]
    exact Nat.zero_lt_of_lt hb
  · exact Nat.digits_lt_base hb (List.mem_reverse.1 h)

/-- Reading the digits from the left gives the number back. -/
theorem foldl_baseDigits (b v : Nat) : (baseDigits b v).foldl (fun n d => b * n + d) 0 = v := by
  unfold baseDigits
  split
  · next hv => simp [hv]
  · calc (Nat.digits b v).reverse.foldl (fun n d => b * n + d) 0
        = (Nat.digits b v).foldr (fun d n => d + b * n) 0 := by
          simp only [List.foldl_reverse, Nat.add_comm]
      _ = Nat.ofDigits b (Nat.digits b v) := (Nat.ofDigits_eq_foldr b _).symm
      _ = v := Nat.ofDigits_digits b v

/-- There is no leading zero, except as the only digit. -/
theorem baseDigits_of_head?_eq_zero (h : (baseDigits b v).head? = some 0) :
    baseDigits b v = [0] := by
  unfold baseDigits at h ⊢
  split at h
  · next hv => rw [if_pos hv]
  · next hv =>
    rw [List.head?_reverse,
      List.getLast?_eq_some_getLast (Nat.digits_ne_nil_iff_ne_zero.2 hv)] at h
    exact absurd (Option.some.inj h) (Nat.getLast_digit_ne_zero b hv)

/-! ### The digits of DBG -/

theorem hexDigitsAux_eq {fuel : Nat} (h : v < 16 ^ fuel) :
    hexDigitsAux fuel v = (Nat.digits 16 v).reverse := by
  induction fuel generalizing v with
  | zero =>
    obtain rfl := Nat.lt_one_iff.1 h
    rfl
  | succ fuel ih =>
    unfold hexDigitsAux
    split
    · next hv => simp [hv]
    · next hv =>
      rw [ih (Nat.div_lt_of_lt_mul (by rwa [pow_succ'] at h)),
        Nat.digits_def' (by norm_num) (Nat.pos_of_ne_zero hv), List.reverse_cons]

theorem hexDigits_eq {W : Nat} (hW : W % 8 = 0) (hv : v < 2 ^ W) :
    hexDigits W 1 v = baseDigits 16 v := by
  have hfuel : v < 16 ^ (W / 4) := by
    rwa [show (16 : Nat) = 2 ^ 4 from rfl, ← pow_mul, Nat.mul_div_cancel' (by omega)]
  simp only [hexDigits, hexDigitsAux_eq hfuel, baseDigits, max_self]
  split
  · next hzero => simp [hzero]
  · next hne =>
    have hlen : 1 ≤ (Nat.digits 16 v).length :=
      List.length_pos_iff.2 (Nat.digits_ne_nil_iff_ne_zero.2 hne)
    rw [List.length_reverse, Nat.sub_eq_zero_of_le hlen, List.replicate_zero, List.nil_append]

/-! ### The digits of a listing -/

theorem decimalText_eq (v : Nat) :
    decimalText v = (baseDigits 10 v).map fun d => BitVec.ofNat 8 (0x30 + d) := by
  unfold decimalText baseDigits
  split <;> rfl

theorem decimalText_ne_nil (v : Nat) : decimalText v ≠ [] := by
  rw [decimalText_eq, ne_eq, List.map_eq_nil_iff]
  exact baseDigits_ne_nil 10 v

/-- The code of a decimal digit, which fits a byte (R100). -/
theorem toNat_digitCode (hd : d < 10) : (BitVec.ofNat 8 (0x30 + d)).toNat = 0x30 + d := by
  rw [BitVec.toNat_ofNat]
  omega

theorem isDigit_of_mem_decimalText {c : Byte} (h : c ∈ decimalText v) : isDigit c = true := by
  rw [decimalText_eq] at h
  obtain ⟨d, hd, rfl⟩ := List.mem_map.1 h
  have hlt : d < 10 := lt_of_mem_baseDigits (by norm_num) hd
  simp [isDigit, toNat_digitCode hlt]
  omega

/-- The assembler reads the value of a number back from its digits (R100). -/
theorem decimalValue_decimalText (v : Nat) : decimalValue (decimalText v) = v := by
  rw [decimalValue, decimalText_eq, List.foldl_map]
  calc (baseDigits 10 v).foldl (fun n d => 10 * n + ((BitVec.ofNat 8 (0x30 + d)).toNat - 0x30)) 0
      = (baseDigits 10 v).foldl (fun n d => 10 * n + d) 0 := by
        refine List.foldl_ext _ _ _ fun n d hd => ?_
        rw [toNat_digitCode (lt_of_mem_baseDigits (by norm_num) hd), Nat.add_sub_cancel_left]
    _ = v := foldl_baseDigits 10 v

end Machine

namespace Claims

open Machine

/-- Settles O57: under the default format the digits printed are `baseDigits 16`. -/
theorem dbgTextIsTheWordInBase16 : Obligations.DbgTextIsTheWordInBase16 := by
  unfold Obligations.DbgTextIsTheWordInBase16
  rintro p w ⟨⟨hW, -⟩, -⟩ hw hformat
  refine ⟨baseDigits 16 w, baseDigits_ne_nil 16 w,
    fun d hd => lt_of_mem_baseDigits (by norm_num) hd, ?_, foldl_baseDigits 16 w,
    baseDigits_of_head?_eq_zero⟩
  rw [dbgText, hformat, ← hexDigits_eq hW hw]
  rfl

end Claims

end Sys2Proof
end

section
/-! PROOF. Tokens of assembler text (30_encoding.md R97 to R102): what `nextToken` reads, said once as a relation;
the tokens cover the text. -/

namespace Sys2Proof

namespace Machine

variable {c : Byte} {src rest : List Byte} {tok : Token}

/-! ### Kinds of characters -/

theorem isSpace_iff : isSpace c = true ↔ c = 0x20 := decide_eq_true_iff

theorem isLineFeed_iff : isLineFeed c = true ↔ c = 0x0A := decide_eq_true_iff

/-- The characters of a kind that the space does not belong to are no spaces. -/
theorem isSpace_eq_false {p : Byte → Bool} (hp : p 0x20 = false) (hc : p c = true) :
    isSpace c = false := by
  by_contra hs
  rw [isSpace_iff.1 (Bool.eq_true_of_not_eq_false hs), hp] at hc
  exact nomatch hc

/-- The characters of a kind that the line feed does not belong to are no line feeds. -/
theorem isLineFeed_eq_false {p : Byte → Bool} (hp : p 0x0A = false) (hc : p c = true) :
    isLineFeed c = false := by
  by_contra hs
  rw [isLineFeed_iff.1 (Bool.eq_true_of_not_eq_false hs), hp] at hc
  exact nomatch hc

theorem isLetter_eq_false_of_isDigit (h : isDigit c = true) : isLetter c = false := by
  simp only [isDigit, isLetter, Bool.and_eq_true, decide_eq_true_iff, Bool.or_eq_false_iff,
    Bool.and_eq_false_iff, decide_eq_false_iff_not] at h ⊢
  omega

/-! ### Spaces -/

/-- The spaces that are skipped, and the text after them (R98). -/
theorem exists_spaces_append (src : List Byte) :
    ∃ n, src = List.replicate n 0x20 ++ src.dropWhile isSpace := by
  have hall : ∀ c ∈ src.takeWhile isSpace, c = 0x20 := fun c hc =>
    isSpace_iff.1 (List.mem_takeWhile_imp hc)
  refine ⟨(src.takeWhile isSpace).length, ?_⟩
  rw [← List.eq_replicate_of_mem hall, List.takeWhile_append_dropWhile]

theorem isSpace_eq_false_of_dropWhile (h : src.dropWhile isSpace = c :: rest) :
    isSpace c = false := by
  have := List.head?_dropWhile_not isSpace src
  rwa [h] at this

/-! ### What is read -/

/-- A text without a leading space, the token read from it and the text after the token (R98 to R102). -/
inductive Reads : List Byte → Token → List Byte → Prop where
  | endOfInput : Reads [] .endOfInput []
  | endOfLine (rest : List Byte) : Reads (0x0A :: rest) .endOfLine rest
  | identifier (c : Byte) (cs rest : List Byte) (hc : isSpace c = false) :
      Reads (c :: cs ++ rest) (.identifier (c :: cs)) rest
  | integer (c : Byte) (cs rest : List Byte) (v : Nat) (hc : isSpace c = false) :
      Reads (c :: cs ++ rest) (.integer (c :: cs) v) rest
  | character (x : Byte) (rest : List Byte) :
      Reads (apostrophe :: x :: apostrophe :: rest) (.character x) rest
  | unknown (c : Byte) (rest : List Byte) (hc : isSpace c = false) :
      Reads (c :: rest) (.unknown c) rest

theorem nextToken_reads (src : List Byte) :
    Reads (src.dropWhile isSpace) (nextToken src).1 (nextToken src).2 := by
  have happend : ∀ (p : Byte → Bool) (c : Byte) (l : List Byte),
      c :: l = c :: l.takeWhile p ++ l.dropWhile p := fun p c l => by
    rw [List.cons_append, List.takeWhile_append_dropWhile]
  unfold nextToken
  cases h : src.dropWhile isSpace with
  | nil => exact .endOfInput
  | cons c rest =>
    have hc := isSpace_eq_false_of_dropWhile h
    dsimp only
    split
    · next hlf =>
      obtain rfl := isLineFeed_iff.1 hlf
      exact .endOfLine rest
    split
    · exact happend _ c rest ▸ .identifier c _ _ hc
    split
    · exact happend _ c rest ▸ .integer c _ _ _ hc
    split
    · next hquote =>
      split
      · next x q rest' =>
        split
        · next hclose =>
          obtain ⟨hq, -⟩ := Bool.and_eq_true_iff.1 hclose
          obtain rfl : q = apostrophe := of_decide_eq_true hq
          exact hquote ▸ .character x rest'
        · exact .unknown c _ hc
      · exact .unknown c _ hc
    · exact .unknown c _ hc

/-- The textual form of the token with the text after it (R97). -/
theorem Reads.text_append (h : Reads src tok rest) : src = tok.text ++ rest := by
  cases h <;> rfl

theorem Reads.text_head? (h : Reads src tok rest) : tok.text.head? ≠ some 0x20 := by
  have hne : ∀ c : Byte, isSpace c = false → some c ≠ some 0x20 := by
    rintro c hc heq
    rw [Option.some.inj heq] at hc
    exact absurd hc (by decide)
  cases h with
  | endOfInput => simp [Token.text]
  | endOfLine => exact hne _ (by decide)
  | identifier c cs rest hc => exact hne c hc
  | integer c cs rest v hc => exact hne c hc
  | character x rest => exact hne _ (by decide)
  | unknown c rest hc => exact hne c hc

theorem Reads.eq_endOfInput_iff (h : Reads src tok rest) : tok = .endOfInput ↔ tok.text = [] := by
  cases h <;> simp [Token.text]

theorem Reads.rest_eq_nil (h : Reads src tok rest) (htok : tok = .endOfInput) : rest = [] := by
  cases h with
  | endOfInput => rfl
  | _ => exact nomatch htok

/-- Reading a token only takes from the front of the text. -/
theorem nextToken_suffix (src : List Byte) : (nextToken src).2 <:+ src :=
  (List.suffix_append _ _).trans
    ((nextToken_reads src).text_append ▸ List.dropWhile_suffix isSpace)

end Machine

namespace Claims

open Machine

/-- Settles O60: spaces are skipped first, and each way of reading a token has its text at the front. -/
theorem tokensCoverTheText : Obligations.TokensCoverTheText := by
  unfold Obligations.TokensCoverTheText
  intro src rest tok h
  have hreads : Reads (src.dropWhile isSpace) tok rest := by
    simpa only [h] using nextToken_reads src
  refine ⟨?_, hreads.text_head?, hreads.eq_endOfInput_iff, hreads.rest_eq_nil⟩
  obtain ⟨n, hn⟩ := exists_spaces_append src
  exact ⟨n, by rw [List.append_assoc, ← hreads.text_append]; exact hn⟩

end Claims

end Sys2Proof
end

section
/-! PROOF. What the assembler emits for any text (30_encoding.md R103 to R105): operands are words, and an error
names a line of the text. -/

namespace Sys2Proof

namespace Machine

variable {p : Params} {src rest : List Byte} {i : Instr} {m : Opcode} {k : OperandKind}

/-! ### Operands -/

/-- An accepted operand is a word (R100, R103). -/
theorem operandValue_lt {tok : Token} {o : Nat} (h : operandValue p k tok = some o) :
    o < 2 ^ p.W := by
  unfold operandValue at h
  split at h
  · split at h
    · next hlt => exact Option.some.inj h ▸ hlt
    · exact nomatch h
  · split at h
    · next hlt => exact Option.some.inj h ▸ hlt
    · exact nomatch h
  · exact nomatch h

/-- A mnemonic with one operand: the instruction is well formed, the text is read from its front. -/
theorem parseOne_wellFormed {mk : Nat → Instr} (hops : ∀ o, (mk o).operands = [o])
    (h : parseOne p k mk src = some (i, rest)) : i.wellFormed p = true ∧ rest <:+ src := by
  unfold parseOne at h
  split at h
  · next o ho =>
    obtain ⟨rfl, rfl⟩ := Prod.mk.inj (Option.some.inj h)
    exact ⟨(Instr.wellFormed_iff p _).2 (by simp [hops, operandValue_lt ho]),
      nextToken_suffix src⟩
  · exact nomatch h

/-- A mnemonic with two operands: as with one. -/
theorem parseTwo_wellFormed {mk : Nat → Nat → Instr}
    (hops : ∀ o₁ o₂, (mk o₁ o₂).operands = [o₁, o₂])
    (h : parseTwo p k mk src = some (i, rest)) : i.wellFormed p = true ∧ rest <:+ src := by
  unfold parseTwo at h
  split at h
  · exact nomatch h
  · next o₁ ho₁ =>
    split at h
    · exact nomatch h
    · next o₂ ho₂ =>
      obtain ⟨rfl, rfl⟩ := Prod.mk.inj (Option.some.inj h)
      exact ⟨(Instr.wellFormed_iff p _).2
          (by simp [hops, operandValue_lt ho₁, operandValue_lt ho₂]),
        (nextToken_suffix _).trans (nextToken_suffix src)⟩

/-- Whatever the mnemonic, the instruction parsed for it has words for operands (R104). -/
theorem parseOperands_wellFormed (h : parseOperands p m src = some (i, rest)) :
    i.wellFormed p = true ∧ rest <:+ src := by
  cases m with
  | push | jmp | store | load => exact parseOne_wellFormed (fun _ => rfl) h
  | jge | jgt | jle | jlt | jeq | inLine => exact parseTwo_wellFormed (fun _ _ => rfl) h
  | _ =>
    obtain ⟨rfl, rfl⟩ := Prod.mk.inj (Option.some.inj h)
    exact ⟨rfl, List.suffix_rfl⟩

/-! ### Lines -/

/-- The number of line feeds in a text. -/
def lineFeeds (src : List Byte) : Nat := src.countP (· = 0x0A)

theorem lineFeeds_le (h : rest <:+ src) : lineFeeds rest ≤ lineFeeds src :=
  h.sublist.countP_le

theorem lineFeeds_of_endOfLine (h : nextToken src = (.endOfLine, rest)) :
    lineFeeds rest + 1 ≤ lineFeeds src := by
  have hreads := nextToken_reads src
  rw [h] at hreads
  have hdrop : src.dropWhile isSpace = 0x0A :: rest := hreads.text_append
  calc lineFeeds rest + 1 = lineFeeds (src.dropWhile isSpace) := by simp [hdrop, lineFeeds]
    _ ≤ lineFeeds src := lineFeeds_le (List.dropWhile_suffix isSpace)

/-- The results that assembling from line `line` on can have, one constructor for each way the line ends. -/
inductive LineResult (p : Params) (fuel line : Nat) (sent : List Instr) (src : List Byte) :
    Assembly → Prop where
  | ended : LineResult p fuel line sent src ⟨sent, none⟩
  | failed (e : AsmError) : LineResult p fuel line sent src ⟨sent, some (line, e)⟩
  | blank (rest : List Byte) (h : nextToken src = (.endOfLine, rest)) :
      LineResult p fuel line sent src (assembleLines p fuel (line + 1) sent rest)
  | last (m : Opcode) (i : Instr) (rest rest' : List Byte)
      (hparse : parseOperands p m rest = some (i, rest')) (err : Option (Nat × AsmError))
      (herr : ∀ l e, err = some (l, e) → l = line) :
      LineResult p fuel line sent src ⟨sent ++ [i], err⟩
  | emitted (text : List Byte) (m : Opcode) (i : Instr) (rest rest' rest'' : List Byte)
      (hname : nextToken src = (.identifier text, rest))
      (hparse : parseOperands p m rest = some (i, rest'))
      (hend : nextToken rest' = (.endOfLine, rest'')) :
      LineResult p fuel line sent src (assembleLines p fuel (line + 1) (sent ++ [i]) rest'')

theorem assembleLines_lineResult (p : Params) (fuel line : Nat) (sent : List Instr)
    (src : List Byte) :
    LineResult p fuel line sent src (assembleLines p (fuel + 1) line sent src) := by
  unfold assembleLines
  split
  · exact .ended
  · next rest h => exact .blank rest h
  · next text rest hname =>
    split
    · exact .failed _
    · next m hm =>
      split
      · exact .failed _
      · next i rest' hparse =>
        split
        · exact .last m i rest rest' hparse _ (by simp)
        · next rest'' hend => exact .emitted text m i rest rest' rest'' hname hparse hend
        · exact .last m i rest rest' hparse _ (by simp_all)
  · exact .failed _

/-- The emitted instructions are well formed, and an error names a line of `src`, counted from `line`. -/
def Assembly.Sound (p : Params) (line : Nat) (src : List Byte) (a : Assembly) : Prop :=
  (∀ i ∈ a.emitted, i.wellFormed p = true) ∧
  ∀ l e, a.error = some (l, e) → line ≤ l ∧ l ≤ line + lineFeeds src

/-- Going on with the text after a line feed, an error is one line further on. -/
theorem Assembly.Sound.of_next {line : Nat} {a : Assembly} (h : a.Sound p (line + 1) rest)
    (hrest : lineFeeds rest + 1 ≤ lineFeeds src) : a.Sound p line src := by
  obtain ⟨hemitted, herror⟩ := h
  refine ⟨hemitted, fun l e he => ?_⟩
  have := herror l e he
  omega

theorem assembleLines_sound (p : Params) (fuel line : Nat) {sent : List Instr} (src : List Byte)
    (hsent : ∀ i ∈ sent, i.wellFormed p = true) :
    (assembleLines p fuel line sent src).Sound p line src := by
  induction fuel generalizing line sent src with
  | zero => exact ⟨hsent, nofun⟩
  | succ fuel ih =>
    have happend : ∀ i : Instr, i.wellFormed p = true → ∀ j ∈ sent ++ [i], j.wellFormed p = true := by
      intro i hi j hj
      rcases List.mem_append.1 hj with hj | hj
      · exact hsent j hj
      · exact List.mem_singleton.1 hj ▸ hi
    have hresult := assembleLines_lineResult p fuel line sent src
    generalize assembleLines p (fuel + 1) line sent src = a at hresult ⊢
    cases hresult with
    | ended => exact ⟨hsent, nofun⟩
    | failed e =>
      refine ⟨hsent, fun l e' he => ?_⟩
      obtain ⟨rfl, -⟩ := Prod.mk.inj (Option.some.inj he)
      exact ⟨le_rfl, Nat.le_add_right _ _⟩
    | blank rest h => exact (ih _ _ hsent).of_next (lineFeeds_of_endOfLine h)
    | last m i rest rest' hparse err herr =>
      refine ⟨happend i (parseOperands_wellFormed hparse).1, fun l e he => ?_⟩
      rw [herr l e he]
      exact ⟨le_rfl, Nat.le_add_right _ _⟩
    | emitted text m i rest rest' rest'' hname hparse hend =>
      obtain ⟨hi, hsuffix⟩ := parseOperands_wellFormed hparse
      have hrest : rest <:+ src := by simpa only [hname] using nextToken_suffix src
      exact (ih _ _ (happend i hi)).of_next
        ((lineFeeds_of_endOfLine hend).trans (lineFeeds_le (hsuffix.trans hrest)))

end Machine

namespace Claims

open Machine

/-- Settles O58: the whole text is assembled from line 1 on. -/
theorem assemblerEmitsOnlyWords : Obligations.AssemblerEmitsOnlyWords := by
  unfold Obligations.AssemblerEmitsOnlyWords
  intro p src _
  obtain ⟨hemitted, herror⟩ := assembleLines_sound p (src.length + 1) 1 src (sent := []) (by simp)
  refine ⟨hemitted, fun line e he => ?_⟩
  rw [Nat.add_comm (src.countP _)]
  exact herror line e he

end Claims

end Sys2Proof
end

section
/-! PROOF. The assembler reads back listings (30_encoding.md R96 to R104): a mnemonic, a decimal operand after a
space and a line feed are read as the tokens they were written for, a line as its instruction. -/

namespace Sys2Proof

namespace Machine

open Claims

variable {p : Params} {i : Instr} {o o₁ o₂ : Nat} {tail rest : List Byte} {k : OperandKind}

/-! ### Reading one token -/

/-- A run of characters of a kind ends before a character that is not of that kind. -/
theorem takeWhile_dropWhile_run {q : Byte → Bool} {run : List Byte} (hrun : ∀ d ∈ run, q d = true)
    (htail : ∀ d ∈ tail.head?, q d = false) :
    (run ++ tail).takeWhile q = run ∧ (run ++ tail).dropWhile q = tail := by
  rw [List.takeWhile_append_of_pos hrun, List.dropWhile_append_of_pos hrun]
  cases tail with
  | nil => simp
  | cons d tail => simp [htail d rfl]

theorem nextToken_letters {name : List Byte} (hne : name ≠ [])
    (hname : ∀ d ∈ name, isLetter d = true)
    (htail : ∀ d ∈ tail.head?, (isLetter d || isDigit d) = false) :
    nextToken (name ++ tail) = (.identifier name, tail) := by
  obtain ⟨c, cs, rfl⟩ := List.exists_cons_of_ne_nil hne
  obtain ⟨hc, hcs⟩ := List.forall_mem_cons.1 hname
  have hspace : isSpace c = false := isSpace_eq_false (by decide) hc
  have hlf : isLineFeed c = false := isLineFeed_eq_false (by decide) hc
  obtain ⟨htake, hdrop⟩ := takeWhile_dropWhile_run (q := fun d => isLetter d || isDigit d)
    (fun d hd => by rw [hcs d hd, Bool.true_or]) htail
  simp [nextToken, hspace, hlf, hc, htake, hdrop]

theorem nextToken_space_digits {ds : List Byte} (hne : ds ≠ [])
    (hds : ∀ d ∈ ds, isDigit d = true) (htail : ∀ d ∈ tail.head?, isDigit d = false) :
    nextToken (0x20 :: (ds ++ tail)) = (.integer ds (decimalValue ds), tail) := by
  obtain ⟨c, cs, rfl⟩ := List.exists_cons_of_ne_nil hne
  obtain ⟨hc, hcs⟩ := List.forall_mem_cons.1 hds
  have hspace : isSpace c = false := isSpace_eq_false (by decide) hc
  have hlf : isLineFeed c = false := isLineFeed_eq_false (by decide) hc
  have hletter := isLetter_eq_false_of_isDigit hc
  have hskip : (0x20 :: c :: (cs ++ tail)).dropWhile isSpace = c :: (cs ++ tail) := by
    rw [List.dropWhile_cons_of_pos rfl, List.dropWhile_cons_of_neg (by simp [hspace])]
  obtain ⟨htake, hdrop⟩ := takeWhile_dropWhile_run hcs htail
  simp only [nextToken, List.cons_append, hskip, hlf, hletter, hc, htake, hdrop, if_true,
    Bool.false_eq_true, if_false]

theorem nextToken_lineFeed (rest : List Byte) : nextToken (0x0A :: rest) = (.endOfLine, rest) := rfl

theorem nextToken_nil : nextToken [] = (.endOfInput, []) := rfl

/-! ### Mnemonics -/

theorem mnemonicText_ne_nil (m : Opcode) : mnemonicText m ≠ [] := by cases m <;> simp [mnemonicText]

theorem isLetter_of_mem_mnemonicText (m : Opcode) : ∀ c ∈ mnemonicText m, isLetter c = true := by
  have hall : (mnemonicText m).all isLetter = true := by cases m <;> rfl
  exact List.all_eq_true.1 hall

/-- The mnemonics are spelled differently (R99, R104). -/
theorem mnemonicOf_mnemonicText (m : Opcode) : mnemonicOf (mnemonicText m) = some m := by
  cases m <;> rfl

/-! ### Operands -/

/-- The operands of a listing line, each after one space (R96). -/
def operandsText (os : List Nat) : List Byte := os.flatMap fun o => 0x20 :: decimalText o

theorem operandsText_cons_append (o : Nat) (os : List Nat) (tail : List Byte) :
    operandsText (o :: os) ++ tail = 0x20 :: (decimalText o ++ (operandsText os ++ tail)) := by
  simp [operandsText]

/-- After a mnemonic or an operand comes a space or a line feed. -/
theorem head?_operandsText (os : List Nat) (rest : List Byte) :
    ∀ d ∈ (operandsText os ++ 0x0A :: rest).head?, d = 0x20 ∨ d = 0x0A := by
  cases os <;> simp [operandsText]

theorem nextToken_operand (o : Nat) (os : List Nat) (rest : List Byte) :
    nextToken (operandsText (o :: os) ++ 0x0A :: rest) =
      (.integer (decimalText o) o, operandsText os ++ 0x0A :: rest) := by
  have htail : ∀ d ∈ (operandsText os ++ 0x0A :: rest).head?, isDigit d = false := by
    intro d hd
    rcases head?_operandsText os rest d hd with rfl | rfl <;> rfl
  rw [operandsText_cons_append, nextToken_space_digits (decimalText_ne_nil o)
    (fun _ => isDigit_of_mem_decimalText) htail, decimalValue_decimalText]

theorem operandValue_integer (k : OperandKind) (text : List Byte) (ho : o < 2 ^ p.W) :
    operandValue p k (.integer text o) = some o := by
  simp [operandValue, ho]

theorem parseOne_listing (k : OperandKind) (mk : Nat → Instr) (ho : o < 2 ^ p.W)
    (rest : List Byte) :
    parseOne p k mk (operandsText [o] ++ 0x0A :: rest) = some (mk o, 0x0A :: rest) := by
  simp only [parseOne, nextToken_operand, operandValue_integer _ _ ho]
  rfl

theorem parseTwo_listing (k : OperandKind) (mk : Nat → Nat → Instr) (ho₁ : o₁ < 2 ^ p.W)
    (ho₂ : o₂ < 2 ^ p.W) (rest : List Byte) :
    parseTwo p k mk (operandsText [o₁, o₂] ++ 0x0A :: rest) = some (mk o₁ o₂, 0x0A :: rest) := by
  simp only [parseTwo, nextToken_operand, operandValue_integer _ _ ho₁,
    operandValue_integer _ _ ho₂]
  rfl

/-- The operands of a well-formed instruction are read back (R103). -/
theorem parseOperands_listing (hi : i.wellFormed p = true) (rest : List Byte) :
    parseOperands p i.opcode (operandsText i.operands ++ 0x0A :: rest) =
      some (i, 0x0A :: rest) := by
  have hops := (i.wellFormed_iff p).1 hi
  cases i with
  | push o | jmp o | store o | load o =>
    exact parseOne_listing _ _ (hops o (by simp [Instr.operands])) rest
  | jge o₁ o₂ | jgt o₁ o₂ | jle o₁ o₂ | jlt o₁ o₂ | jeq o₁ o₂ | inLine o₁ o₂ =>
    exact parseTwo_listing _ _ (hops o₁ (by simp [Instr.operands]))
      (hops o₂ (by simp [Instr.operands])) rest
  | _ => rfl

/-! ### Lines -/

theorem listingLine_append (i : Instr) (rest : List Byte) :
    listingLine i ++ rest =
      mnemonicText i.opcode ++ (operandsText i.operands ++ 0x0A :: rest) := by
  simp [listingLine, operandsText]

theorem nextToken_listingLine (i : Instr) (rest : List Byte) :
    nextToken (listingLine i ++ rest) =
      (.identifier (mnemonicText i.opcode), operandsText i.operands ++ 0x0A :: rest) := by
  rw [listingLine_append]
  refine nextToken_letters (mnemonicText_ne_nil _) (isLetter_of_mem_mnemonicText _) fun d hd => ?_
  rcases head?_operandsText i.operands rest d hd with rfl | rfl <;> rfl

/-- A listing line sends its instruction and leaves the next line (R104). -/
theorem assembleLines_listingLine (hi : i.wellFormed p = true) (fuel line : Nat)
    (sent : List Instr) (rest : List Byte) :
    assembleLines p (fuel + 1) line sent (listingLine i ++ rest) =
      assembleLines p fuel (line + 1) (sent ++ [i]) rest := by
  simp only [assembleLines, nextToken_listingLine, mnemonicOf_mnemonicText,
    parseOperands_listing hi, nextToken_lineFeed]

theorem assembleLines_listing {is : List Instr} (his : ∀ i ∈ is, i.wellFormed p = true)
    {fuel : Nat} (hfuel : is.length ≤ fuel) (line : Nat) (sent : List Instr) :
    assembleLines p fuel line sent (is.flatMap listingLine) = ⟨sent ++ is, none⟩ := by
  induction is generalizing fuel line sent with
  | nil => cases fuel <;> simp [assembleLines, nextToken_nil]
  | cons i is ih =>
    obtain ⟨hi, his⟩ := List.forall_mem_cons.1 his
    obtain ⟨fuel, rfl⟩ := Nat.exists_eq_add_of_le' (Nat.one_le_of_lt hfuel)
    rw [List.flatMap_cons, assembleLines_listingLine hi, ih his (Nat.le_of_succ_le_succ hfuel),
      List.append_assoc, List.singleton_append]

/-- A listing has at least one character a line. -/
theorem length_le_length_listing (is : List Instr) :
    is.length ≤ (is.flatMap listingLine).length := by
  induction is with
  | nil => simp
  | cons i is ih =>
    have hline : 1 ≤ (listingLine i).length := by
      rw [listingLine, List.length_append]
      exact Nat.le_add_left _ _
    rw [List.flatMap_cons, List.length_cons, List.length_append]
    omega

end Machine

namespace Claims

open Machine

/-- Settles O59, by induction on the program, line by line. -/
theorem assemblerReadsBackListings : Obligations.AssemblerReadsBackListings := by
  unfold Obligations.AssemblerReadsBackListings
  intro p is his
  exact assembleLines_listing his (Nat.le_succ_of_le (length_le_length_listing is)) 1 []

end Claims

end Sys2Proof
end
